-- ==== Sys2Proof/Word.lean ====
section
/-! DEFINITION. The word types of the chiptest8 core (00_scope.md R4, R5; 30_encoding.md R61). Every value the
spec treats as bits is an unsigned bit vector with bit 0 the least significant; nothing is ever signed. -/

namespace Sys2Proof

/-- A register, memory or immediate byte (`kk`), 8 bits (R4 `REG_WIDTH`). -/
abbrev Byte := BitVec 8

/-- A 16-bit word: PC, I, a stack slot, an opcode (R4 `PC_WIDTH`, `I_WIDTH`). -/
abbrev Word := BitVec 16

/-- The 12-bit address immediate `nnn` (R61). -/
abbrev Addr12 := BitVec 12

/-- A 4-bit field that is not a register index: the row count or the trailing nibble `n` (R61). -/
abbrev Nibble := BitVec 4

/-- A general register's index, 0x0 to 0xF: a 4-bit field has no other value (10_state.md R20). -/
abbrev Reg := Fin 16

end Sys2Proof
end

