-- ==== Sys2Proof/Syntax.lean ====
section
/-! DEFINITION. The instructions: one constructor per row of spec/opcode_table.json, in its order (30_encoding.md R68).
An operand field the instruction ignores (`i` of the 5- and 9-groups, `y` of the shifts, `x` of the key skips) is kept,
so that no bit of an encoding is lost. Log 21. -/

namespace Sys2Proof

/-- The 35 rows of the opcode map (30_encoding.md R68). -/
inductive Instr where
  /-- 00E0, CLS (42_display.md R105). -/
  | cls
  /-- 00EE, RET (40_control_flow.md R82). -/
  | ret
  /-- 0nnn but the two above: SYS addr, unrecognized (30_encoding.md R69, R70). -/
  | sys (nnn : Addr12)
  /-- 1nnn, JP addr (R80). -/
  | jp (nnn : Addr12)
  /-- 2nnn, CALL addr (R81). -/
  | call (nnn : Addr12)
  /-- 3xkk, SE Vx,byte (R84). -/
  | seByte (x : Reg) (kk : Byte)
  /-- 4xkk, SNE Vx,byte (R85). -/
  | sneByte (x : Reg) (kk : Byte)
  /-- 5xyi, SE Vx,Vy, `i` not examined (R86, R66). -/
  | seReg (x y : Reg) (i : Nibble)
  /-- 6xkk, LD Vx,byte (41_alu.md R90). -/
  | ldByte (x : Reg) (kk : Byte)
  /-- 7xkk, ADD Vx,byte (R91). -/
  | addByte (x : Reg) (kk : Byte)
  /-- 8xy0, LD Vx,Vy (R92). -/
  | ldReg (x y : Reg)
  /-- 8xy1, OR Vx,Vy (R93). -/
  | orReg (x y : Reg)
  /-- 8xy2, AND Vx,Vy (R94). -/
  | andReg (x y : Reg)
  /-- 8xy3, XOR Vx,Vy (R95). -/
  | xorReg (x y : Reg)
  /-- 8xy4, ADD Vx,Vy (R96). -/
  | addReg (x y : Reg)
  /-- 8xy5, SUB Vx,Vy (R97). -/
  | subReg (x y : Reg)
  /-- 8xy6, SHR Vx, `y` ignored (R98). -/
  | shr (x y : Reg)
  /-- 8xy7, SUBN Vx,Vy (R99). -/
  | subnReg (x y : Reg)
  /-- 8xyE, SHL Vx, `y` ignored (R100). -/
  | shl (x y : Reg)
  /-- 9xyi, SNE Vx,Vy, `i` not examined (R87, R66). -/
  | sneReg (x y : Reg) (i : Nibble)
  /-- Annn, LD I,addr (44_index_memory.md R120). -/
  | ldI (nnn : Addr12)
  /-- Bnnn, JP V0,addr (R83). -/
  | jpV0 (nnn : Addr12)
  /-- Cxkk, RND Vx,byte (R101). -/
  | rnd (x : Reg) (kk : Byte)
  /-- Dxyn, DRW Vx,Vy,nibble (R106). -/
  | drw (x y : Reg) (n : Nibble)
  /-- Ex9E, SKP Vx, `x` not used (43_keys_timers.md R110). -/
  | skp (x : Reg)
  /-- ExA1, SKNP Vx, `x` not used (R111). -/
  | sknp (x : Reg)
  /-- Fx07, LD Vx,DT (R112). -/
  | ldVxDt (x : Reg)
  /-- Fx0A, LD Vx,K (R113). -/
  | ldVxK (x : Reg)
  /-- Fx15, LD DT,Vx (R114). -/
  | ldDtVx (x : Reg)
  /-- Fx18, LD ST,Vx (R115). -/
  | ldStVx (x : Reg)
  /-- Fx1E, ADD I,Vx (R121). -/
  | addIVx (x : Reg)
  /-- Fx29, LD F,Vx (R122). -/
  | ldF (x : Reg)
  /-- Fx33, LD B,Vx (R123). -/
  | ldB (x : Reg)
  /-- Fx55, LD [I],Vx (R124). -/
  | storeRegs (x : Reg)
  /-- Fx65, LD Vx,[I] (R125). -/
  | loadRegs (x : Reg)
  deriving DecidableEq, Repr

end Sys2Proof
end

