-- ==== Sys2Proof/WellFormed.lean ====
section
/-! DEFINITION. Which terms of `Instr` some word encodes. The operand types already bound every field (30_encoding.md
R61); what is left is that the row 0nnn excludes the two full-value matches, which come first (R65, R70 (a)). -/

namespace Sys2Proof

/-- `nnn` of the row SYS is neither 0x0E0 (that word is CLS) nor 0x0EE (that word is RET): R65, R70 (a). -/
def Instr.sysAddrFree (nnn : Addr12) : Bool :=
  nnn != 0x0E0#12 && nnn != 0x0EE#12

/-- The instruction is what some opcode decodes to. -/
def Instr.wf : Instr → Bool
  | .sys nnn => Instr.sysAddrFree nnn
  | .cls | .ret | .jp _ | .call _ | .seByte _ _ | .sneByte _ _ | .seReg _ _ _ | .ldByte _ _ | .addByte _ _
  | .ldReg _ _ | .orReg _ _ | .andReg _ _ | .xorReg _ _ | .addReg _ _ | .subReg _ _ | .shr _ _ | .subnReg _ _
  | .shl _ _ | .sneReg _ _ _ | .ldI _ | .jpV0 _ | .rnd _ _ | .drw _ _ _ | .skp _ | .sknp _ | .ldVxDt _
  | .ldVxK _ | .ldDtVx _ | .ldStVx _ | .addIVx _ | .ldF _ | .ldB _ | .storeRegs _ | .loadRegs _ => true

end Sys2Proof
end

