-- ==== Sys2Proof/Decode.lean ====
section
/-! DEFINITION. Decoding and encoding (30_encoding.md R60 to R71, R74). Opcode numbers the source does not print are the
spec's customary ones (R68, decision D13; log 8). -/

namespace Sys2Proof

/-! ### Fields of an opcode (R61) -/

/-- `lead`, op[15:12]. -/
def opLead (op : Word) : Nibble := op.extractLsb' 12 4

/-- `x`, op[11:8]. -/
def opX (op : Word) : Reg := (op.extractLsb' 8 4).toFin

/-- `y`, op[7:4]. -/
def opY (op : Word) : Reg := (op.extractLsb' 4 4).toFin

/-- `n`, op[3:0]. -/
def opN (op : Word) : Nibble := op.extractLsb' 0 4

/-- `kk`, op[7:0]. -/
def opKk (op : Word) : Byte := op.extractLsb' 0 8

/-- `nnn`, op[11:0]. -/
def opNnn (op : Word) : Addr12 := op.extractLsb' 0 12

/-! ### The decoder -/

/-- Why the decoder gives no instruction, by name. The first three are the unrecognized words of R70 (b), (c), (d),
which the machine executes by R69 (a diagnostic and PC + 2); the last is not an opcode at all. -/
inductive Reject where
  /-- 0x8xyN with N in 8, 9, A, B, C, D, F (R70 (b)). -/
  | eightGroup (op : Word)
  /-- 0xExkk with kk neither 0x9E nor 0xA1 (R70 (c); R67, decision D10). -/
  | eGroup (op : Word)
  /-- 0xFxkk with kk none of the nine selectors (R70 (d)). -/
  | fGroup (op : Word)
  /-- Not two bytes: every instruction is exactly two (R60). -/
  | notTwoBytes (length : Nat)
  deriving DecidableEq, Repr

/-- The 8-group, selected by the trailing nibble (R65, R67). -/
def decodeEight (op : Word) : Except Reject Instr :=
  match opN op with
  | 0x0#4 => .ok (.ldReg (opX op) (opY op))
  | 0x1#4 => .ok (.orReg (opX op) (opY op))
  | 0x2#4 => .ok (.andReg (opX op) (opY op))
  | 0x3#4 => .ok (.xorReg (opX op) (opY op))
  | 0x4#4 => .ok (.addReg (opX op) (opY op))
  | 0x5#4 => .ok (.subReg (opX op) (opY op))
  | 0x6#4 => .ok (.shr (opX op) (opY op))
  | 0x7#4 => .ok (.subnReg (opX op) (opY op))
  | 0xE#4 => .ok (.shl (opX op) (opY op))
  | _ => .error (.eightGroup op)

/-- The E-group, selected by the trailing byte (R65, R67). -/
def decodeE (op : Word) : Except Reject Instr :=
  match opKk op with
  | 0x9E#8 => .ok (.skp (opX op))
  | 0xA1#8 => .ok (.sknp (opX op))
  | _ => .error (.eGroup op)

/-- The F-group, selected by the trailing byte (R65, R67). -/
def decodeF (op : Word) : Except Reject Instr :=
  match opKk op with
  | 0x07#8 => .ok (.ldVxDt (opX op))
  | 0x0A#8 => .ok (.ldVxK (opX op))
  | 0x15#8 => .ok (.ldDtVx (opX op))
  | 0x18#8 => .ok (.ldStVx (opX op))
  | 0x1E#8 => .ok (.addIVx (opX op))
  | 0x29#8 => .ok (.ldF (opX op))
  | 0x33#8 => .ok (.ldB (opX op))
  | 0x55#8 => .ok (.storeRegs (opX op))
  | 0x65#8 => .ok (.loadRegs (opX op))
  | _ => .error (.fGroup op)

/-- Dispatch on the leading nibble alone, or with a second key for 8, E and F (R65, R66). The last arm is the one
nibble left, 0xF. -/
def decodeLead (op : Word) : Except Reject Instr :=
  match opLead op with
  | 0x0#4 => .ok (.sys (opNnn op))
  | 0x1#4 => .ok (.jp (opNnn op))
  | 0x2#4 => .ok (.call (opNnn op))
  | 0x3#4 => .ok (.seByte (opX op) (opKk op))
  | 0x4#4 => .ok (.sneByte (opX op) (opKk op))
  | 0x5#4 => .ok (.seReg (opX op) (opY op) (opN op))
  | 0x6#4 => .ok (.ldByte (opX op) (opKk op))
  | 0x7#4 => .ok (.addByte (opX op) (opKk op))
  | 0x8#4 => decodeEight op
  | 0x9#4 => .ok (.sneReg (opX op) (opY op) (opN op))
  | 0xA#4 => .ok (.ldI (opNnn op))
  | 0xB#4 => .ok (.jpV0 (opNnn op))
  | 0xC#4 => .ok (.rnd (opX op) (opKk op))
  | 0xD#4 => .ok (.drw (opX op) (opY op) (opN op))
  | 0xE#4 => decodeE op
  | _ => decodeF op

/-- The decoder: the two full-value matches first, then the leading nibble (R65). -/
def decode (op : Word) : Except Reject Instr :=
  if op = 0x00E0#16 then .ok .cls
  else if op = 0x00EE#16 then .ok .ret
  else decodeLead op

/-- The opcode formed by two bytes, the one at the lower address in bits 15:8 (20_memory.md R44). -/
def opOfBytes (hi lo : Byte) : Word := hi ++ lo

/-- Decoding bytes as memory holds them: total on any list, an instruction only from exactly two (R60). -/
def decodeBytes : List Byte → Except Reject Instr
  | [hi, lo] => decode (opOfBytes hi lo)
  | bs => .error (.notTwoBytes bs.length)

/-- The two bytes of an opcode as memory holds them, high byte first (R74). -/
def bytesOfOp (op : Word) : List Byte := [op.extractLsb' 8 8, op.extractLsb' 0 8]

/-- The opcode made of the low `nbits` bits of `w`, bit 0 the least significant, all other bits 0. -/
def tableWord (nbits w : Nat) : Word := BitVec.ofNat 16 (w % 2 ^ nbits)

/-- The instruction the decoder reads from the opcode-table word `w`, laid out big-endian as memory holds it. -/
def decodeTableWord (nbits w : Nat) : Option Instr :=
  match decodeBytes (bytesOfOp (tableWord nbits w)) with
  | .ok i => some i
  | .error _ => none

/-- The word is one of R70: the dispatch of R65 selects no instruction that has a meaning of its own. -/
def unrecognizedWord (op : Word) : Bool :=
  match decode op with
  | .ok (.sys _) => true
  | .ok _ => false
  | .error _ => true

/-! ### The encoder (R74): lead, operand fields, selector -/

/-- Format A: `lead nnn`. -/
def encA (lead : Nibble) (nnn : Addr12) : Word := lead ++ nnn

/-- Formats XK and X: `lead x kk`. -/
def encXK (lead : Nibble) (x : Reg) (kk : Byte) : Word := lead ++ (BitVec.ofFin (w := 4) x ++ kk : BitVec 12)

/-- Formats XY and XYN: `lead x y n`. -/
def encXY (lead : Nibble) (x y : Reg) (n : Nibble) : Word :=
  lead ++ (BitVec.ofFin (w := 4) x ++ (BitVec.ofFin (w := 4) y ++ n : BitVec 8) : BitVec 12)

/-- The opcode of an instruction (R62, R68, R74). -/
def encode : Instr → Word
  | .cls => 0x00E0#16
  | .ret => 0x00EE#16
  | .sys nnn => encA 0x0#4 nnn
  | .jp nnn => encA 0x1#4 nnn
  | .call nnn => encA 0x2#4 nnn
  | .seByte x kk => encXK 0x3#4 x kk
  | .sneByte x kk => encXK 0x4#4 x kk
  | .seReg x y i => encXY 0x5#4 x y i
  | .ldByte x kk => encXK 0x6#4 x kk
  | .addByte x kk => encXK 0x7#4 x kk
  | .ldReg x y => encXY 0x8#4 x y 0x0#4
  | .orReg x y => encXY 0x8#4 x y 0x1#4
  | .andReg x y => encXY 0x8#4 x y 0x2#4
  | .xorReg x y => encXY 0x8#4 x y 0x3#4
  | .addReg x y => encXY 0x8#4 x y 0x4#4
  | .subReg x y => encXY 0x8#4 x y 0x5#4
  | .shr x y => encXY 0x8#4 x y 0x6#4
  | .subnReg x y => encXY 0x8#4 x y 0x7#4
  | .shl x y => encXY 0x8#4 x y 0xE#4
  | .sneReg x y i => encXY 0x9#4 x y i
  | .ldI nnn => encA 0xA#4 nnn
  | .jpV0 nnn => encA 0xB#4 nnn
  | .rnd x kk => encXK 0xC#4 x kk
  | .drw x y n => encXY 0xD#4 x y n
  | .skp x => encXK 0xE#4 x 0x9E#8
  | .sknp x => encXK 0xE#4 x 0xA1#8
  | .ldVxDt x => encXK 0xF#4 x 0x07#8
  | .ldVxK x => encXK 0xF#4 x 0x0A#8
  | .ldDtVx x => encXK 0xF#4 x 0x15#8
  | .ldStVx x => encXK 0xF#4 x 0x18#8
  | .addIVx x => encXK 0xF#4 x 0x1E#8
  | .ldF x => encXK 0xF#4 x 0x29#8
  | .ldB x => encXK 0xF#4 x 0x33#8
  | .storeRegs x => encXK 0xF#4 x 0x55#8
  | .loadRegs x => encXK 0xF#4 x 0x65#8

/-! ### The opcode map (R68) -/

/-- The row of the opcode map an instruction belongs to: its mask and its match value (R68). -/
def Instr.row : Instr → Word × Word
  | .cls => (0xFFFF#16, 0x00E0#16)
  | .ret => (0xFFFF#16, 0x00EE#16)
  | .sys _ => (0xF000#16, 0x0000#16)
  | .jp _ => (0xF000#16, 0x1000#16)
  | .call _ => (0xF000#16, 0x2000#16)
  | .seByte _ _ => (0xF000#16, 0x3000#16)
  | .sneByte _ _ => (0xF000#16, 0x4000#16)
  | .seReg _ _ _ => (0xF000#16, 0x5000#16)
  | .ldByte _ _ => (0xF000#16, 0x6000#16)
  | .addByte _ _ => (0xF000#16, 0x7000#16)
  | .ldReg _ _ => (0xF00F#16, 0x8000#16)
  | .orReg _ _ => (0xF00F#16, 0x8001#16)
  | .andReg _ _ => (0xF00F#16, 0x8002#16)
  | .xorReg _ _ => (0xF00F#16, 0x8003#16)
  | .addReg _ _ => (0xF00F#16, 0x8004#16)
  | .subReg _ _ => (0xF00F#16, 0x8005#16)
  | .shr _ _ => (0xF00F#16, 0x8006#16)
  | .subnReg _ _ => (0xF00F#16, 0x8007#16)
  | .shl _ _ => (0xF00F#16, 0x800E#16)
  | .sneReg _ _ _ => (0xF000#16, 0x9000#16)
  | .ldI _ => (0xF000#16, 0xA000#16)
  | .jpV0 _ => (0xF000#16, 0xB000#16)
  | .rnd _ _ => (0xF000#16, 0xC000#16)
  | .drw _ _ _ => (0xF000#16, 0xD000#16)
  | .skp _ => (0xF0FF#16, 0xE09E#16)
  | .sknp _ => (0xF0FF#16, 0xE0A1#16)
  | .ldVxDt _ => (0xF0FF#16, 0xF007#16)
  | .ldVxK _ => (0xF0FF#16, 0xF00A#16)
  | .ldDtVx _ => (0xF0FF#16, 0xF015#16)
  | .ldStVx _ => (0xF0FF#16, 0xF018#16)
  | .addIVx _ => (0xF0FF#16, 0xF01E#16)
  | .ldF _ => (0xF0FF#16, 0xF029#16)
  | .ldB _ => (0xF0FF#16, 0xF033#16)
  | .storeRegs _ => (0xF0FF#16, 0xF055#16)
  | .loadRegs _ => (0xF0FF#16, 0xF065#16)

/-- The (mask, match) pairs of the 35 rows of the opcode map, in its priority order (R68). -/
def opcodeMap : List (Word × Word) :=
  [(0xFFFF#16, 0x00E0#16), (0xFFFF#16, 0x00EE#16), (0xF000#16, 0x0000#16), (0xF000#16, 0x1000#16),
   (0xF000#16, 0x2000#16), (0xF000#16, 0x3000#16), (0xF000#16, 0x4000#16), (0xF000#16, 0x5000#16),
   (0xF000#16, 0x6000#16), (0xF000#16, 0x7000#16)] ++
  [(0xF00F#16, 0x8000#16), (0xF00F#16, 0x8001#16), (0xF00F#16, 0x8002#16), (0xF00F#16, 0x8003#16),
   (0xF00F#16, 0x8004#16), (0xF00F#16, 0x8005#16), (0xF00F#16, 0x8006#16), (0xF00F#16, 0x8007#16),
   (0xF00F#16, 0x800E#16)] ++
  [(0xF000#16, 0x9000#16), (0xF000#16, 0xA000#16), (0xF000#16, 0xB000#16), (0xF000#16, 0xC000#16),
   (0xF000#16, 0xD000#16), (0xF0FF#16, 0xE09E#16), (0xF0FF#16, 0xE0A1#16)] ++
  [(0xF0FF#16, 0xF007#16), (0xF0FF#16, 0xF00A#16), (0xF0FF#16, 0xF015#16), (0xF0FF#16, 0xF018#16),
   (0xF0FF#16, 0xF01E#16), (0xF0FF#16, 0xF029#16), (0xF0FF#16, 0xF033#16), (0xF0FF#16, 0xF055#16),
   (0xF0FF#16, 0xF065#16)]

/-- The first row whose (op AND mask) = match, if any (R68). -/
def firstRow (op : Word) : Option (Word × Word) :=
  opcodeMap.find? fun row => (op &&& row.1) == row.2

end Sys2Proof
end

