-- ==== Sys2Proof/Config.lean ====
section
/-! DEFINITION. The implementation parameters of 00_scope.md R4 that are fixed, and the free values: the inputs of a
Step that no host event in State supplies. The parameter FONT is data of State (Machine/Font.lean has its default). -/

namespace Sys2Proof.Config

/-- `MEM_SIZE`: addresses 0x000 to 0xFFF (R4; 20_memory.md R40). -/
def memSize : Nat := 0x1000

/-- `PROGRAM_BASE`: where Load places an image (R4; 20_memory.md R53). -/
def programBase : Nat := 0x200

/-- `RESET_PC` (R4; 10_state.md R22). -/
def resetPc : Word := 0x0200#16

/-- `FONT_BASE` (R4; decision D16 of 92_eei_decisions.md). -/
def fontBase : Nat := 0x000

/-- `GLYPH_BYTES` (R4). -/
def glyphBytes : Nat := 5

/-- The length of `FONT` (R4; 20_memory.md R55). -/
def fontBytes : Nat := 80

/-- `MAX_IMAGE`: the bytes of an image that Load can place (R4; 20_memory.md R53). -/
def maxImage : Nat := 0xE00

/-- The `key` input of the Step number `n` when the host's listed events do not supply it: a free value, none or any
byte (60_exceptions.md R140; U8). It has no body, so no proof can see it. Log 3. -/
opaque freeKey : Nat → Option Byte

/-- The `rnd` input of the Step number `n` when the host's listed events do not supply it: a free draw under no law
(60_exceptions.md R141; U9). It has no body, so no proof can see it. Log 3. -/
opaque freeRnd : Nat → Byte

end Sys2Proof.Config
end

