-- ==== Sys2Proof/Machine/Framebuffer.lean ====
section
/-! DEFINITION. The framebuffer and the sprite compositor (10_state.md R29; 42_display.md R105 to R109). -/

namespace Sys2Proof.Machine

/-- `FB[c][r]`: 64 columns, left to right, of 32 Boolean pixels, top to bottom (R108). -/
structure Framebuffer where
  cols : Vector (Vector Bool 32) 64
  deriving DecidableEq, Repr

/-- Every pixel 0 (R34, R105). -/
def Framebuffer.clear : Framebuffer := { cols := Vector.replicate 64 (Vector.replicate 32 false) }

/-- The pixel `FB[c][r]`. -/
def Framebuffer.pixel (fb : Framebuffer) (c : Fin 64) (r : Fin 32) : Bool := (fb.cols[c])[r]

/-- `FB[c][r] <- p`. -/
def Framebuffer.setPixel (fb : Framebuffer) (c : Fin 64) (r : Fin 32) (p : Bool) : Framebuffer :=
  { cols := fb.cols.set c ((fb.cols[c]).set r p) }

/-- A horizontal coordinate reduced modulo 64 (R106: wrap is per pixel). -/
def wrapCol (n : Nat) : Fin 64 := Fin.ofNat 64 n

/-- A vertical coordinate reduced modulo 32. -/
def wrapRow (n : Nat) : Fin 32 := Fin.ofNat 32 n

/-- A picture in the making: the framebuffer and whether a pixel has gone from 1 to 0 so far. -/
structure Canvas where
  fb : Framebuffer
  hit : Bool
  deriving DecidableEq, Repr

/-- Toggle one pixel; a set pixel that goes out is a collision (R106). -/
def Canvas.toggle (p : Canvas) (c : Fin 64) (r : Fin 32) : Canvas :=
  let old := p.fb.pixel c r
  { fb := p.fb.setPixel c r (!old), hit := p.hit || old }

/-- Horizontal offset `c` of a sprite row: bit `7 - c` of its byte, bit 7 leftmost (R107, decision D14; log 14). -/
def spriteBit (b : Byte) (c : Nat) : Bool := b.getLsbD (7 - c)

/-- One sprite row: the offsets 0 to 7 from the left, drawn at column `vx` of row `row` (R106). -/
def Canvas.drawRow (p : Canvas) (vx : Nat) (row : Fin 32) (b : Byte) : Canvas :=
  (List.range 8).foldl (fun q c => if spriteBit b c then q.toggle (wrapCol (vx + c)) row else q) p

/-- The rows of a sprite, top row first, at row `vy` downwards (R106, R107). -/
def Canvas.drawRows (p : Canvas) (vx vy : Nat) : List Byte → Canvas
  | [] => p
  | b :: bs => (p.drawRow vx (wrapRow vy) b).drawRows vx (vy + 1) bs

/-- A whole sprite drawn at (`vx`, `vy`), the collision flag reset first (R106). -/
def Framebuffer.draw (fb : Framebuffer) (vx vy : Nat) (bytes : List Byte) : Canvas :=
  Canvas.drawRows { fb := fb, hit := false } vx vy bytes

end Sys2Proof.Machine
end

