-- ==== Sys2Proof/Machine/Font.lean ====
section
/-! DEFINITION. The parameter FONT (00_scope.md R4; 20_memory.md R55). The spec fixes its layout, 80 bytes with low
nibbles zero, and leaves the bytes open; so a font is 80 high nibbles. Log 1. -/

namespace Sys2Proof.Machine

/-- A FONT the spec allows: `FONT[k]` is the nibble `k` followed by four zero bits (R55). -/
abbrev Font := Vector Nibble 80

/-- `FONT[k]` as the byte memory holds (R55: the low nibble of every byte is 0). -/
def fontByte (font : Font) (k : Fin 80) : Byte := font[k] ++ 0x0#4

/-- The spec's default FONT, R55's table: the customary font, which the spec marks as general knowledge (PRESUMED). -/
def defaultFont : Font :=
  #v[0xF#4, 0x9#4, 0x9#4, 0x9#4, 0xF#4, 0x2#4, 0x6#4, 0x2#4, 0x2#4, 0x7#4,
     0xF#4, 0x1#4, 0xF#4, 0x8#4, 0xF#4, 0xF#4, 0x1#4, 0xF#4, 0x1#4, 0xF#4] ++
  #v[0x9#4, 0x9#4, 0xF#4, 0x1#4, 0x1#4, 0xF#4, 0x8#4, 0xF#4, 0x1#4, 0xF#4,
     0xF#4, 0x8#4, 0xF#4, 0x9#4, 0xF#4, 0xF#4, 0x1#4, 0x2#4, 0x4#4, 0x4#4] ++
  #v[0xF#4, 0x9#4, 0xF#4, 0x9#4, 0xF#4, 0xF#4, 0x9#4, 0xF#4, 0x1#4, 0xF#4,
     0xF#4, 0x9#4, 0xF#4, 0x9#4, 0x9#4, 0xE#4, 0x9#4, 0xE#4, 0x9#4, 0xE#4] ++
  #v[0xF#4, 0x8#4, 0x8#4, 0x8#4, 0xF#4, 0xE#4, 0x9#4, 0x9#4, 0x9#4, 0xE#4,
     0xF#4, 0x8#4, 0xF#4, 0x8#4, 0xF#4, 0xF#4, 0x8#4, 0xF#4, 0x8#4, 0x8#4]

end Sys2Proof.Machine
end

