-- ==== Sys2Proof/Machine/Memory.lean ====
section
/-! DEFINITION. The 4096-byte memory (10_state.md R28; 20_memory.md R40 to R48): a sorted list of the bytes that differ
from the reset contents, so that equal memories are equal data. An address at 0x1000 or above does not exist. -/

namespace Sys2Proof.Machine

/-- Memory: the machine's FONT parameter, and the bytes whose value is not the reset one, addresses strictly rising. -/
structure Memory where
  font : Font
  cells : List Host.Cell
  deriving DecidableEq, Repr

/-- What an unlisted address reads as: the reset contents, FONT at 0x000 to 0x04F and 0x00 elsewhere (R28, R41). -/
def Memory.initial (m : Memory) (a : Nat) : Byte :=
  if h : a < 80 then fontByte m.font ⟨a, h⟩ else 0x00#8

/-- The value listed for an address, if any. -/
def lookupCell (a : Nat) : List Host.Cell → Option Byte
  | [] => none
  | (b, v) :: cs => if a = b then some v else lookupCell a cs

/-- The list after address `a` takes value `v`, where an unlisted `a` reads as `d`: canonical in, canonical out. -/
def putCell (d : Byte) (a : Nat) (v : Byte) : List Host.Cell → List Host.Cell
  | [] => if v = d then [] else [(a, v)]
  | (b, w) :: cs =>
    if a < b then (if v = d then (b, w) :: cs else (a, v) :: (b, w) :: cs)
    else if a = b then (if v = d then cs else (a, v) :: cs)
    else (b, w) :: putCell d a v cs

/-- The byte `mem[a]`; used only at addresses that exist (`read`, `readBytes`). -/
def Memory.byte (m : Memory) (a : Nat) : Byte :=
  match lookupCell a m.cells with
  | some v => v
  | none => m.initial a

/-- `mem[a] <- v`; used only at addresses that exist (`writeBytes`, `load`). -/
def Memory.setByte (m : Memory) (a : Nat) (v : Byte) : Memory :=
  { m with cells := putCell (m.initial a) a v m.cells }

/-- Consecutive bytes set in ascending address order (R47). -/
def Memory.setBytes (m : Memory) (a : Nat) : List Byte → Memory
  | [] => m
  | v :: vs => (m.setByte a v).setBytes (a + 1) vs

/-- Every address of the `n` bytes from `a` exists (R43, R48). The sum is an unbounded natural number (R45). -/
def spanFits (a n : Nat) : Bool :=
  n == 0 || decide (a + n - 1 < Config.memSize)

/-- `MemRead(a, 1)`: one byte; none where the address does not exist (R43). -/
def Memory.read (m : Memory) (a : Nat) : Option Byte :=
  if a < Config.memSize then some (m.byte a) else none

/-- `n` consecutive bytes from `a`, lowest address first; none if any address does not exist (R47, R48). -/
def Memory.readBytes (m : Memory) (a n : Nat) : Option (List Byte) :=
  if spanFits a n then some ((List.range n).map fun k => m.byte (a + k)) else none

/-- Consecutive bytes written from `a`; none, with nothing written, if any address does not exist (R47, R48). -/
def Memory.writeBytes (m : Memory) (a : Nat) (vs : List Byte) : Option Memory :=
  if spanFits a vs.length then some (m.setBytes a vs) else none

/-- The canonical form of a cell list: addresses below 0x1000 and above `lo`, strictly rising, no reset value listed. -/
def cellsWf (m : Memory) (lo : Nat) : List Host.Cell → Bool
  | [] => true
  | (a, v) :: cs => decide (lo ≤ a) && decide (a < Config.memSize) && v != m.initial a && cellsWf m (a + 1) cs

/-- Memory is in canonical form. -/
def Memory.wf (m : Memory) : Bool := cellsWf m 0 m.cells

/-- Memory right after Reset: nothing listed (R28, R150). -/
def Memory.reset (font : Font) : Memory := { font := font, cells := [] }

end Sys2Proof.Machine
end

