-- ==== Sys2Proof/Machine/State.lean ====
section
/-! DEFINITION. The state of the core (10_state.md R20 to R34), as plain data, and the state after Reset (R34; 70_reset_
and_hazards.md R150). The last three fields are the model's own: the host's events, a counter, the output ports. -/

namespace Sys2Proof.Machine

/-- The fault causes of 60_exceptions.md R131. In this model a fault is a NEXT state whose latch `State.fault` holds the
cause (R30, R132; log 5); no step answers `Host.Outcome.fault`. Safe: a latched core does nothing until Reset. -/
inductive Fault where
  /-- Raised by the fetch of a Step when PC is 0xFFF or more (20_memory.md R44). Safe. -/
  | fetchOutOfRange
  /-- Raised by DRW, LD B, LD [I],Vx and LD Vx,[I] when an address they would use is 0x1000 or more (R43). Safe. -/
  | dataOutOfRange
  /-- Raised by CALL when 16 return addresses are held (40_control_flow.md R81). Safe. -/
  | stackOverflow
  /-- Raised by RET when the stack is empty (40_control_flow.md R82). Safe. -/
  | stackUnderflow
  deriving DecidableEq, Repr

/-- Why an instruction would have no meaning in the model. No arm of `exec` uses it: every row has its meaning. -/
inductive Refusal where
  /-- An instruction the model does not give a meaning, by its mnemonic: raised by `exec`'s arm. Safe. -/
  | notModelled (mnemonic : String)
  deriving DecidableEq, Repr

/-- What FAULT latches: the cause and the PC of the instruction that raised it (R30, R131). -/
structure FaultRecord where
  cause : Fault
  pc : Word
  deriving DecidableEq, Repr

/-- The four operations the host drives the core with (00_scope.md R7; 60_exceptions.md R146). -/
inductive HostEvent where
  /-- Reset (70_reset_and_hazards.md R150). -/
  | reset
  /-- Load(image) (20_memory.md R53). -/
  | load (image : List Byte)
  /-- Tick (60_exceptions.md R137). -/
  | tick
  /-- Step(key, rnd) (30_encoding.md R64). -/
  | step (key : Option Byte) (rnd : Byte)
  deriving DecidableEq, Repr

/-- What a Step puts on the output ports (60_exceptions.md R139 (e), R140, R142): the diagnostic event's opcode, the
wait status, the key-acknowledge pulse. -/
structure Outputs where
  diag : Option Word
  wait : Bool
  keyAck : Bool
  deriving DecidableEq, Repr

/-- The outputs of a Step that emits nothing. -/
def Outputs.quiet : Outputs := { diag := none, wait := false, keyAck := false }

/-- The state of the core. -/
structure State where
  /-- V0 to VF (R20, R21). -/
  v : Vector Byte 16
  /-- PC (R22). -/
  pc : Word
  /-- I (R23). -/
  i : Word
  /-- DT, the delay timer (R24). -/
  dt : Byte
  /-- ST, the sound timer (R25). -/
  st : Byte
  /-- stack[0] to stack[15] (R26). -/
  stack : Vector Word 16
  /-- SP + 1: the number of return addresses held, 0 to 16 (R27 allows this encoding; log 6). -/
  depth : Fin 17
  /-- mem[0x000] to mem[0xFFF] (R28), with the parameter FONT (R55). -/
  mem : Memory
  /-- FB (R29). -/
  fb : Framebuffer
  /-- FAULT (R30). -/
  fault : Option FaultRecord
  /-- STARTED (R31). -/
  started : Bool
  /-- The model's own: the output ports as the latest Step left them (log 4). -/
  out : Outputs
  /-- The model's own: the events the host will issue, oldest first; when none is left it issues Steps (log 2). -/
  host : List HostEvent
  /-- The model's own: how many Steps have been issued, the argument of the free inputs (log 3). -/
  draws : Nat
  deriving DecidableEq, Repr

/-- SP, -1 to 15 (R27). -/
def State.sp (s : State) : Int := (s.depth.val : Int) - 1

/-- The state after Reset of a machine whose parameter is `font`, and whose host then does as it likes (R34, R150). -/
def State.resetWith (font : Font) : State :=
  { v := Vector.replicate 16 0x00#8
    pc := Config.resetPc
    i := 0x0000#16
    dt := 0x00#8
    st := 0x00#8
    stack := Vector.replicate 16 0x0000#16
    depth := 0
    mem := Memory.reset font
    fb := Framebuffer.clear
    fault := none
    started := false
    out := Outputs.quiet
    host := []
    draws := 0 }

/-- The machine right after Reset, with the spec's default FONT (R34, R55, R150; log 1). -/
def State.reset : State := State.resetWith defaultFont

end Sys2Proof.Machine
end

