-- ==== Sys2Proof/Machine/Ops.lean ====
section
/-! DEFINITION. The named operations over the registers, the stack, memory, the ports and the fault latch, through which
every instruction reads and writes the state (00_scope.md R6; 10_state.md R20 to R31). -/

namespace Sys2Proof.Machine

/-- What an instruction or an event answers. -/
abbrev Result := Host.Outcome State Fault Refusal

/-! ### Registers -/

/-- `V[r]` (R6, R20). -/
def State.reg (s : State) (r : Reg) : Byte := s.v[r]

/-- `V[r] <- b` (R6, R20). -/
def State.setReg (s : State) (r : Reg) (b : Byte) : State := { s with v := s.v.set r b }

/-- `PC <- w` (R6). -/
def State.setPc (s : State) (w : Word) : State := { s with pc := w }

/-- `I <- w` (R6, R23). -/
def State.setI (s : State) (w : Word) : State := { s with i := w }

/-- `DT <- b` (R24). -/
def State.setDt (s : State) (b : Byte) : State := { s with dt := b }

/-- `ST <- b` (R25). -/
def State.setSt (s : State) (b : Byte) : State := { s with st := b }

/-- The whole memory replaced. -/
def State.setMem (s : State) (m : Memory) : State := { s with mem := m }

/-- The whole framebuffer replaced. -/
def State.setFb (s : State) (fb : Framebuffer) : State := { s with fb := fb }

/-- What the current Step puts on the output ports (R139, R140, R142). -/
def State.setOut (s : State) (o : Outputs) : State := { s with out := o }

/-! ### The program counter (R22; 30_encoding.md R64 step 6) -/

/-- The address of the next instruction in memory: PC after step 6 of R64. PC arithmetic is modulo 65536 (R22). -/
def State.nextPc (s : State) : Word := s.pc + 2#16

/-- Step 6 of R64: `PC <- PC + 2`. -/
def State.advance (s : State) : State := s.setPc s.nextPc

/-- A skip: 2 more than the advance when the condition holds (40_control_flow.md R84 to R87). -/
def State.skipIf (s : State) (c : Bool) : State := s.setPc (if c then s.nextPc + 2#16 else s.nextPc)

/-! ### The call stack (R26, R27) -/

/-- `SP <- SP + 1; stack[SP] <- w`, or StackOverflow when all 16 slots hold return addresses (R81). -/
def State.push (s : State) (w : Word) : Except Fault State :=
  if h : s.depth.val < 16 then
    .ok { s with stack := s.stack.set s.depth.val w, depth := ⟨s.depth.val + 1, by omega⟩ }
  else .error .stackOverflow

/-- `stack[SP]` and the state after `SP <- SP - 1`, or StackUnderflow when the stack is empty (R82). The slot keeps its
value. -/
def State.pop (s : State) : Except Fault (Word × State) :=
  if h : 0 < s.depth.val then
    .ok (s.stack[s.depth.val - 1]'(by have := s.depth.isLt; omega),
      { s with depth := ⟨s.depth.val - 1, by have := s.depth.isLt; omega⟩ })
  else .error .stackUnderflow

/-! ### Memory through I (20_memory.md R43, R45, R47, R48) -/

/-- `mem[I .. I+n-1]`, or DataOutOfRange with nothing read. The address is not reduced (R45). -/
def State.readAtI (s : State) (n : Nat) : Except Fault (List Byte) :=
  match s.mem.readBytes s.i.toNat n with
  | some bs => .ok bs
  | none => .error .dataOutOfRange

/-- `mem[I ..] <- bs`, or DataOutOfRange with nothing written. -/
def State.writeAtI (s : State) (bs : List Byte) : Except Fault State :=
  match s.mem.writeBytes s.i.toNat bs with
  | some m => .ok (s.setMem m)
  | none => .error .dataOutOfRange

/-! ### Faults (60_exceptions.md R131, R132) -/

/-- The codes of R131 (decision D35). -/
def faultCode : Fault → Nat
  | .fetchOutOfRange => 1
  | .dataOutOfRange => 2
  | .stackOverflow => 3
  | .stackUnderflow => 4

/-- Fault entry: `FAULT <- (cause, PC)` and nothing else; control goes nowhere and no state is saved (R132). It is
applied to the state before the instruction, so every effect of the instruction is discarded. -/
def State.raise (s : State) (f : Fault) : State := { s with fault := some { cause := f, pc := s.pc } }

/-- Steps 7 and 8 of R64: the effect of the instruction if it raised nothing, else fault entry from the state `s` the
instruction found, its PC not yet advanced. -/
def State.commit (s : State) : Except Fault State → Result
  | .ok t => .next t
  | .error f => .next (s.raise f)

/-! ### The inputs of a Step and the outputs (60_exceptions.md R139 to R142) -/

/-- The `key` input of the Step now executing: the host's, or a free value where no event lists it (R140; log 3). -/
def State.key (s : State) : Option Byte :=
  match s.host with
  | .step key _ :: _ => key
  | _ => Config.freeKey s.draws

/-- The `rnd` input of the Step now executing: the host's, or a free value where no event lists it (R141; log 3). -/
def State.rnd (s : State) : Byte :=
  match s.host with
  | .step _ rnd :: _ => rnd
  | _ => Config.freeRnd s.draws

/-- The Step's inputs are used up: the host supplies others with the next Step (R140, R141). -/
def State.consume (s : State) : State := { s with host := s.host.tail, draws := s.draws + 1 }

/-- Step 2 of R64, `STARTED <- 1`, with nothing yet on the output ports. -/
def State.beginStep (s : State) : State := { s with started := true, out := Outputs.quiet }

/-- The wait status of a stalled LD Vx,K (43_keys_timers.md R113; R139 (e)). -/
def Outputs.waiting : Outputs := { diag := none, wait := true, keyAck := false }

/-- The key-acknowledge pulse (R113, R140). -/
def Outputs.keyTaken : Outputs := { diag := none, wait := false, keyAck := true }

/-- `Diag(op)` (R142). -/
def Outputs.report (op : Word) : Outputs := { diag := some op, wait := false, keyAck := false }

/-- An unrecognized opcode: PC advanced, `Diag(op)` emitted, nothing else (30_encoding.md R69). -/
def State.unrecognized (s : State) (op : Word) : State := (s.setOut (Outputs.report op)).advance

end Sys2Proof.Machine
end

