-- ==== Sys2Proof/Machine/Operands.lean ====
section
/-! DEFINITION. The operand forms (30_encoding.md R61 to R63): immediates zero-extended, and the register range V0 to Vx
of the bulk copies (44_index_memory.md R124, R125). -/

namespace Sys2Proof.Machine

/-- `zext_16(nnn)` (R63). -/
def zextAddr (nnn : Addr12) : Word := nnn.zeroExtend 16

/-- `zext_16(b)` of a register's byte. -/
def zextByte (b : Byte) : Word := b.zeroExtend 16

/-- A value stored in an 8-bit register or memory byte: `v mod 256` (00_scope.md R6). -/
def store8 (n : Nat) : Byte := BitVec.ofNat 8 n

/-- VF, the flag register (10_state.md R21). -/
def flagReg : Reg := 0xF

/-- `V[0..x]`, V0 first, x + 1 bytes (R124). -/
def State.regsUpTo (s : State) (x : Reg) : List Byte :=
  (List.range (x.val + 1)).map fun k => s.reg (Fin.ofNat 16 k)

/-- `V[k], V[k+1], ... <- bs` in ascending order (R125). -/
def State.setRegs (s : State) (k : Nat) : List Byte → State
  | [] => s
  | b :: bs => (s.setReg (Fin.ofNat 16 k) b).setRegs (k + 1) bs

end Sys2Proof.Machine
end

