-- ==== Sys2Proof/Machine/Flags.lean ====
section
/-! DEFINITION. The flag computations and the arithmetic whose flag they are (41_alu.md R96 to R103): operands are taken
as numbers, the exact result formed, then narrowed. VF is written first, the result second (R103; log 12). -/

namespace Sys2Proof.Machine

/-- A flag as VF holds it: 0 or 1 only (10_state.md R21). -/
def flagByte (c : Bool) : Byte := if c then 0x01#8 else 0x00#8

/-- Carry out of bit 7: the exact sum exceeds 255 (R96). -/
def carryFlag (a b : Byte) : Bool := decide (255 < a.toNat + b.toNat)

/-- Strictly greater, unsigned: the flag of SUB and SUBN, 0 on equality (R97, R99). -/
def greaterFlag (a b : Byte) : Bool := decide (b.toNat < a.toNat)

/-- The bit SHR shifts out, bit 0 (R98). -/
def lowFlag (a : Byte) : Bool := a.getLsbD 0

/-- The bit SHL shifts out, bit 7 (R100). -/
def highFlag (a : Byte) : Bool := a.getLsbD 7

/-- `(a + b) mod 256` (R91, R96). -/
def sumByte (a b : Byte) : Byte := store8 (a.toNat + b.toNat)

/-- `(a - b) mod 256`, that is a - b + 256 when a < b (R97, R99). -/
def differenceByte (a b : Byte) : Byte := store8 (a.toNat + 256 - b.toNat)

/-- `a div 2` (R98). -/
def halfByte (a : Byte) : Byte := store8 (a.toNat / 2)

/-- `(a * 2) mod 256` (R100). -/
def doubleByte (a : Byte) : Byte := store8 (a.toNat * 2)

/-- The two writes of a flag-writing arithmetic instruction in their order: VF, then the destination, so that with
x = 0xF the result stays (R9, R103). -/
def State.setFlagAndReg (s : State) (c : Bool) (x : Reg) (b : Byte) : State :=
  (s.setReg flagReg (flagByte c)).setReg x b

end Sys2Proof.Machine
end

