-- ==== Sys2Proof/Machine/Alu.lean ====
section
/-! DEFINITION. Register loads, arithmetic, logic, shifts and random (41_alu.md). Every operand is read from the state
before the instruction (00_scope.md R8); PC advances by 2; none can fault. -/

namespace Sys2Proof.Machine

/-- LD Vx,byte (R90). -/
def execLdByte (x : Reg) (kk : Byte) (s : State) : Result := .next (s.setReg x kk).advance

/-- ADD Vx,byte: no flag (R91). -/
def execAddByte (x : Reg) (kk : Byte) (s : State) : Result := .next (s.setReg x (sumByte (s.reg x) kk)).advance

/-- LD Vx,Vy (R92). -/
def execLdReg (x y : Reg) (s : State) : Result := .next (s.setReg x (s.reg y)).advance

/-- OR Vx,Vy: no flag (R93). -/
def execOrReg (x y : Reg) (s : State) : Result := .next (s.setReg x (s.reg x ||| s.reg y)).advance

/-- AND Vx,Vy: no flag (R94). -/
def execAndReg (x y : Reg) (s : State) : Result := .next (s.setReg x (s.reg x &&& s.reg y)).advance

/-- XOR Vx,Vy: no flag (R95). -/
def execXorReg (x y : Reg) (s : State) : Result := .next (s.setReg x (s.reg x ^^^ s.reg y)).advance

/-- ADD Vx,Vy: VF = carry (R96). -/
def execAddReg (x y : Reg) (s : State) : Result :=
  .next (s.setFlagAndReg (carryFlag (s.reg x) (s.reg y)) x (sumByte (s.reg x) (s.reg y))).advance

/-- SUB Vx,Vy: VF = (Vx > Vy), strictly (R97). -/
def execSubReg (x y : Reg) (s : State) : Result :=
  .next (s.setFlagAndReg (greaterFlag (s.reg x) (s.reg y)) x (differenceByte (s.reg x) (s.reg y))).advance

/-- SHR Vx: VF = the bit shifted out; Vy is neither read nor written (R98). -/
def execShr (x : Reg) (s : State) : Result :=
  .next (s.setFlagAndReg (lowFlag (s.reg x)) x (halfByte (s.reg x))).advance

/-- SUBN Vx,Vy: VF = (Vy > Vx), strictly (R99). -/
def execSubnReg (x y : Reg) (s : State) : Result :=
  .next (s.setFlagAndReg (greaterFlag (s.reg y) (s.reg x)) x (differenceByte (s.reg y) (s.reg x))).advance

/-- SHL Vx: VF = the bit shifted out; Vy is neither read nor written (R100). -/
def execShl (x : Reg) (s : State) : Result :=
  .next (s.setFlagAndReg (highFlag (s.reg x)) x (doubleByte (s.reg x))).advance

/-- RND Vx,byte: the Step's `rnd` input, masked (R101). -/
def execRnd (x : Reg) (kk : Byte) (s : State) : Result := .next (s.setReg x (s.rnd &&& kk)).advance

end Sys2Proof.Machine
end

