-- ==== Sys2Proof/Machine/Control.lean ====
section
/-! DEFINITION. Control flow (40_control_flow.md) and the unrecognized row (30_encoding.md R69). Each meaning is applied
to the state whose PC is the address the instruction was fetched from. -/

namespace Sys2Proof.Machine

/-- SYS addr, 0nnn: unrecognized, `Diag(op)` with op = 0nnn, and PC + 2 (R69, R70 (a)). -/
def execSys (nnn : Addr12) (s : State) : Result := .next (s.unrecognized (0x0#4 ++ nnn))

/-- JP addr (R80). -/
def execJp (nnn : Addr12) (s : State) : Result := .next (s.setPc (zextAddr nnn))

/-- CALL addr: the return address is the instruction's address plus 2; StackOverflow at SP = 15 (R81). -/
def execCall (nnn : Addr12) (s : State) : Result :=
  s.commit ((s.push s.nextPc).map fun t => t.setPc (zextAddr nnn))

/-- RET; StackUnderflow at SP = -1 (R82). -/
def execRet (s : State) : Result := s.commit (s.pop.map fun p => p.2.setPc p.1)

/-- JP V0,addr: the 16-bit sum, not reduced to 12 bits (R83). -/
def execJpV0 (nnn : Addr12) (s : State) : Result := .next (s.setPc (zextAddr nnn + zextByte (s.reg 0)))

/-- SE Vx,byte (R84). -/
def execSeByte (x : Reg) (kk : Byte) (s : State) : Result := .next (s.skipIf (s.reg x == kk))

/-- SNE Vx,byte (R85). -/
def execSneByte (x : Reg) (kk : Byte) (s : State) : Result := .next (s.skipIf (s.reg x != kk))

/-- SE Vx,Vy; the trailing nibble is not an operand (R86, R66). -/
def execSeReg (x y : Reg) (s : State) : Result := .next (s.skipIf (s.reg x == s.reg y))

/-- SNE Vx,Vy; the trailing nibble is not an operand (R87, R66). -/
def execSneReg (x y : Reg) (s : State) : Result := .next (s.skipIf (s.reg x != s.reg y))

end Sys2Proof.Machine
end

