-- ==== Sys2Proof/Machine/Display.lean ====
section
/-! DEFINITION. The display instructions (42_display.md R105, R106). -/

namespace Sys2Proof.Machine

/-- CLS: every pixel 0, no flag (R105). -/
def execCls (s : State) : Result := .next (s.setFb Framebuffer.clear).advance

/-- The effect of a drawn sprite: the framebuffer, and VF = collision, written on every execution (R106). -/
def State.showSprite (s : State) (p : Canvas) : State := (s.setFb p.fb).setReg flagReg (flagByte p.hit)

/-- DRW Vx,Vy,nibble: the coordinates, I and the n sprite bytes are read before VF or a pixel is written;
DataOutOfRange, with nothing changed, if a byte lies at 0x1000 or above (R106, R8, R48). -/
def execDrw (x y : Reg) (n : Nibble) (s : State) : Result :=
  s.commit ((s.readAtI n.toNat).map fun bytes =>
    (s.showSprite (s.fb.draw (s.reg x).toNat (s.reg y).toNat bytes)).advance)

end Sys2Proof.Machine
end

