-- ==== Sys2Proof/Machine/Index.lean ====
section
/-! DEFINITION. The address register and the memory instructions (44_index_memory.md R120 to R125). I is changed by the
first three only; a span that leaves memory faults with nothing changed. -/

namespace Sys2Proof.Machine

/-- LD I,addr (R120). -/
def execLdI (nnn : Addr12) (s : State) : Result := .next (s.setI (zextAddr nnn)).advance

/-- ADD I,Vx: modulo 65536, no flag (R121). -/
def execAddIVx (x : Reg) (s : State) : Result := .next (s.setI (s.i + zextByte (s.reg x))).advance

/-- The address of the glyph for digit `b`: `FONT_BASE + b * 5`, b not masked (R122). -/
def glyphAddr (b : Byte) : Word := BitVec.ofNat 16 (Config.fontBase + b.toNat * Config.glyphBytes)

/-- LD F,Vx (R122). -/
def execLdF (x : Reg) (s : State) : Result := .next (s.setI (glyphAddr (s.reg x))).advance

/-- The decimal digits of a byte: hundreds, tens, ones (R123). -/
def bcdBytes (b : Byte) : List Byte :=
  [store8 (b.toNat / 100), store8 (b.toNat / 10 % 10), store8 (b.toNat % 10)]

/-- LD B,Vx: the digits to I, I + 1, I + 2 (R123). -/
def execLdB (x : Reg) (s : State) : Result :=
  s.commit ((s.writeAtI (bcdBytes (s.reg x))).map State.advance)

/-- LD [I],Vx: V0 to Vx stored from I upwards (R124). -/
def execStoreRegs (x : Reg) (s : State) : Result :=
  s.commit ((s.writeAtI (s.regsUpTo x)).map State.advance)

/-- LD Vx,[I]: V0 to Vx loaded from I upwards (R125). -/
def execLoadRegs (x : Reg) (s : State) : Result :=
  s.commit ((s.readAtI (x.val + 1)).map fun bytes => (s.setRegs 0 bytes).advance)

end Sys2Proof.Machine
end

