-- ==== Sys2Proof/Machine/KeysTimers.lean ====
section
/-! DEFINITION. The key and timer instructions (43_keys_timers.md R110 to R115). -/

namespace Sys2Proof.Machine

/-- SKP Vx: the stub, no effect but the PC advance (R110). -/
def execSkp (s : State) : Result := .next s.advance

/-- SKNP Vx: the stub, always skips (R111). -/
def execSknp (s : State) : Result := .next (s.skipIf true)

/-- LD Vx,DT (R112). -/
def execLdVxDt (x : Reg) (s : State) : Result := .next (s.setReg x s.dt).advance

/-- LD Vx,K: without a key the Step stalls, PC and all else as they were and the wait status set; with one, the whole
byte goes to Vx and the key is acknowledged (R113; 30_encoding.md R64 step 5). -/
def execLdVxK (x : Reg) (s : State) : Result :=
  .next (match s.key with
    | none => s.setOut Outputs.waiting
    | some key => ((s.setReg x key).setOut Outputs.keyTaken).advance)

/-- LD DT,Vx (R114). -/
def execLdDtVx (x : Reg) (s : State) : Result := .next (s.setDt (s.reg x)).advance

/-- LD ST,Vx (R115). -/
def execLdStVx (x : Reg) (s : State) : Result := .next (s.setSt (s.reg x)).advance

end Sys2Proof.Machine
end

