-- ==== Sys2Proof/Machine/Events.lean ====
section
/-! DEFINITION. The host's events other than Step, and the observation ports (00_scope.md R7; 20_memory.md R53;
60_exceptions.md R137, R139; 70_reset_and_hazards.md R150). -/

namespace Sys2Proof.Machine

/-- The Reset event: every field as after Reset, the machine's FONT kept, the host free to go on (R150, R134). The
model's counter of Steps is kept, so that later free inputs are fresh (log 25). -/
def State.resetEvent (s : State) : State :=
  { State.resetWith s.mem.font with host := s.host, draws := s.draws }

/-- The Load event: the image to 0x200 onwards, at most 0xE00 bytes of it, before the first Step and while not faulted;
otherwise ignored (R53, R132). -/
def State.loadEvent (s : State) (image : List Byte) : State :=
  if s.started || s.fault.isSome then s
  else s.setMem (s.mem.setBytes Config.programBase (image.take Config.maxImage))

/-- A timer's decrement: towards zero, stopping there (R137; log 16). -/
def countDown (b : Byte) : Byte := if b = 0x00#8 then 0x00#8 else b - 0x01#8

/-- The Tick event: both timers, unless faulted (R137). -/
def State.tickEvent (s : State) : State :=
  if s.fault.isSome then s else (s.setDt (countDown s.dt)).setSt (countDown s.st)

/-- The observation ports the host may read between events (R139): framebuffer, DT, ST, fault status, wait status. -/
structure Ports where
  fb : Framebuffer
  dt : Byte
  st : Byte
  fault : Option FaultRecord
  wait : Bool
  deriving DecidableEq, Repr

/-- Reading the ports; it changes no state (R139). -/
def State.ports (s : State) : Ports :=
  { fb := s.fb, dt := s.dt, st := s.st, fault := s.fault, wait := s.out.wait }

end Sys2Proof.Machine
end

