-- ==== Sys2Proof/Machine/Cycle.lean ====
section
/-! DEFINITION. The Step algorithm (30_encoding.md R64), the next event of the host (00_scope.md R7), and the placing of
an instruction where the next fetch reads it. -/

namespace Sys2Proof.Machine

/-- Steps 3 and 4 of R64: the big-endian opcode at PC and PC + 1, or FetchOutOfRange with nothing read (R44). -/
def State.fetch (s : State) : Except Fault Word :=
  match s.mem.readBytes s.pc.toNat 2 with
  | some [hi, lo] => .ok (opOfBytes hi lo)
  | _ => .error .fetchOutOfRange

/-- Steps 5 to 8 of R64 for a fetched opcode: its instruction, or R69 where the dispatch selects none. -/
def State.execWord (s : State) (op : Word) : Result :=
  match decode op with
  | .ok i => exec i s
  | .error _ => .next (s.unrecognized op)

/-- Steps 3 to 8 of R64. -/
def State.fetchAndExec (s : State) : Result :=
  match s.fetch with
  | .ok op => s.execWord op
  | .error f => .next (s.raise f)

/-- A change of the next state, where there is one. -/
def mapNext (f : State → State) : Result → Result
  | .next t => .next (f t)
  | .fault r => .fault r
  | .refused r => .refused r

/-- The Step event: frozen while FAULT is latched (step 1 of R64; R132), else STARTED is set and one instruction runs.
Either way the host's inputs of this Step are used up. -/
def State.stepEvent (s : State) : Result :=
  if s.fault.isSome then .next (s.setOut Outputs.quiet).consume
  else mapNext State.consume s.beginStep.fetchAndExec

/-- The host's next event is a Step: it is listed, or no event is listed any more (log 2). -/
def State.stepIsNext (s : State) : Bool :=
  match s.host with
  | [] => true
  | .step _ _ :: _ => true
  | .reset :: _ => false
  | .load _ :: _ => false
  | .tick :: _ => false

/-- The host's next event, run to completion (R7). -/
def State.runEvent (s : State) : Result :=
  match s.host with
  | [] => s.stepEvent
  | .step _ _ :: _ => s.stepEvent
  | .reset :: es => .next { s with host := es }.resetEvent
  | .load image :: es => .next ({ s with host := es }.loadEvent image)
  | .tick :: es => .next { s with host := es }.tickEvent

/-- Listed events before the first Step dropped. -/
def dropToStep : List HostEvent → List HostEvent
  | [] => []
  | .step key rnd :: es => .step key rnd :: es
  | .reset :: es => dropToStep es
  | .load _ :: es => dropToStep es
  | .tick :: es => dropToStep es

/-- The state with a word stored, high byte first, where the next fetch reads, and able to fetch it: no fault latched,
a Step next, and PC at the reset value where it addresses no whole word (log 19). -/
def State.placeWord (s : State) (op : Word) : State :=
  let pc := if spanFits s.pc.toNat 2 then s.pc else Config.resetPc
  { s with
    pc := pc
    mem := s.mem.setBytes pc.toNat (bytesOfOp op)
    fault := none
    host := dropToStep s.host }

end Sys2Proof.Machine
end

