-- ==== Sys2Proof/Machine/Step.lean ====
section
/-! DEFINITION. The machine's step: the next event of the host (00_scope.md R7), a Step event where none is listed. -/

namespace Sys2Proof.Machine

/-- One event: Reset, Load, Tick, or a Step that executes one instruction (R7; 30_encoding.md R64). -/
def step (s : State) : Host.Outcome State Fault Refusal := s.runEvent

/-- The state whose next step fetches and runs the opcode-table word `w` (log 19). -/
def State.withFetchWord (s : State) (nbits w : Nat) : State := s.placeWord (tableWord nbits w)

end Sys2Proof.Machine
end

