-- ==== Sys2Proof/Safety.lean ====
section
/-! DEFINITION. The terms claims are stated in: what an instruction leaves unchanged, which instruction a state is about
to run, the invariant of the machine, and the finished state of 70_reset_and_hazards.md R157. -/

namespace Sys2Proof

/-- The registers an instruction may write: its destinations and, for the six of 10_state.md R21, VF. -/
def Instr.mayWrite : Instr → Reg → Bool
  | .ldByte x _, r | .addByte x _, r | .ldReg x _, r | .orReg x _, r | .andReg x _, r | .xorReg x _, r
  | .rnd x _, r | .ldVxDt x, r | .ldVxK x, r => r == x
  | .addReg x _, r | .subReg x _, r | .shr x _, r | .subnReg x _, r | .shl x _, r => r == x || r == 0xF
  | .drw _ _ _, r => r == 0xF
  | .loadRegs x, r => decide (r.val ≤ x.val)
  | .cls, _ | .ret, _ | .sys _, _ | .jp _, _ | .call _, _ | .seByte _ _, _ | .sneByte _ _, _ | .seReg _ _ _, _
  | .sneReg _ _ _, _ | .ldI _, _ | .jpV0 _, _ | .skp _, _ | .sknp _, _ | .ldDtVx _, _ | .ldStVx _, _
  | .addIVx _, _ | .ldF _, _ | .ldB _, _ | .storeRegs _, _ => false

end Sys2Proof

namespace Sys2Proof.Machine

/-- Which pieces of state an instruction may change, PC apart; everything not named stays. -/
structure Effects where
  regs : List Reg := []
  i : Bool := false
  dt : Bool := false
  st : Bool := false
  stack : Bool := false
  mem : Bool := false
  fb : Bool := false
  out : Bool := false

/-- `t` is `s` but for PC and what `e` names: every register, I, the timers, the stack and SP, every byte of memory and
FONT, every pixel, FAULT, STARTED, the output ports, and the host's side. -/
def Frame (e : Effects) (s t : State) : Prop :=
  (∀ r : Reg, r ∉ e.regs → t.reg r = s.reg r) ∧
  (e.i = false → t.i = s.i) ∧
  (e.dt = false → t.dt = s.dt) ∧
  (e.st = false → t.st = s.st) ∧
  (e.stack = false → t.stack = s.stack ∧ t.depth = s.depth) ∧
  (e.mem = false → ∀ a : Nat, t.mem.read a = s.mem.read a) ∧
  t.mem.font = s.mem.font ∧
  (e.fb = false → ∀ (c : Fin 64) (r : Fin 32), t.fb.pixel c r = s.fb.pixel c r) ∧
  t.fault = s.fault ∧
  t.started = s.started ∧
  (e.out = false → t.out = s.out) ∧
  t.host = s.host ∧
  t.draws = s.draws

/-- `t` holds the same state of the core as `s`; only the model's own fields (ports, host, counter) may differ. -/
def SameCore (s t : State) : Prop :=
  t = { s with out := t.out, host := t.host, draws := t.draws }

/-- Every byte outside the `n` bytes from `a` reads in `t` as it did in `s`. -/
def MemSameOutside (a n : Nat) (s t : State) : Prop :=
  ∀ b : Nat, ¬ (a ≤ b ∧ b < a + n) → t.mem.read b = s.mem.read b

/-- The instruction at PC, where two bytes can be fetched and decode to one. -/
def State.current (s : State) : Option Instr :=
  match s.fetch with
  | .error _ => none
  | .ok op =>
    match decode op with
    | .ok i => some i
    | .error _ => none

/-- The opcode at PC is `op`: its high byte is at PC, its low byte at PC + 1, neither reduced (20_memory.md R44). -/
def State.opcodeAtPc (s : State) (op : Word) : Prop :=
  ∃ hi lo : Byte, s.mem.read s.pc.toNat = some hi ∧ s.mem.read (s.pc.toNat + 1) = some lo ∧
    op.toNat = hi.toNat * 256 + lo.toNat

/-- The machine is about to execute a Step and is not frozen. -/
def State.ready (s : State) : Prop := s.fault = none ∧ s.stepIsNext = true

/-- What a Step that faults with `cause` leaves: STARTED and the latch, and the Step's inputs used up (60_exceptions.md
R132). -/
def State.faulted (s : State) (cause : Fault) : State :=
  { s with
    fault := some { cause := cause, pc := s.pc }
    started := true
    out := Outputs.quiet
    host := s.host.tail
    draws := s.draws + 1 }

/-- Pixel (c, r) lies under a 1 bit of the sprite of `n` bytes at I drawn at (vx, vy): some offset (dx, dy) wraps to it
and bit 7 - dx of the byte at I + dy is 1 (42_display.md R106, R107). -/
def Covered (s : State) (vx vy n : Nat) (c : Fin 64) (r : Fin 32) : Prop :=
  ∃ dx dy : Nat, dx < 8 ∧ dy < n ∧ c.val = (vx + dx) % 64 ∧ r.val = (vy + dy) % 32 ∧
    ∃ b : Byte, s.mem.read (s.i.toNat + dy) = some b ∧ b.getLsbD (7 - dx) = true

/-- The invariant every event keeps: memory is canonical; PC is at most 0x10FE (10_state.md R22); every stack slot holds
an address at which a fetch could have left PC, at most 0x1000; a latched fault names this PC, was raised by a Step, and
is a fetch fault exactly where no word can be fetched. -/
def State.Inv (s : State) : Prop :=
  s.mem.wf = true ∧
  s.pc.toNat ≤ 0x10FE ∧
  (∀ k : Fin 16, (s.stack[k]).toNat ≤ 0x1000) ∧
  (∀ f, s.fault = some f → f.pc = s.pc ∧ s.started = true ∧ (f.cause = .fetchOutOfRange ↔ 0xFFF ≤ s.pc.toNat))

/-- PC addresses a JP to that same address: the finished program of R157 (decision D30). -/
def State.atSelfJump (s : State) : Prop :=
  ∃ nnn : Addr12, s.current = some (.jp nnn) ∧ nnn.toNat = s.pc.toNat

end Sys2Proof.Machine
end

