-- ==== Sys2Proof/Certificates/Slice0/Obligations.lean ====
section
/-! DEFINITION. The statements for the provers, from the numbered rules of spec/. "D<n>" names a decision the spec marks as
its own (92_eei_decisions.md), "log <n>" a row of notes/assumptions. -/

open Sys2Proof Sys2Proof.Machine

/-! ### Encoding -/

/-- The seven words the source prints (R61, R74; 95_test_vectors.md 1.1), one word of each other group, one word that is no
instruction, and the byte order in memory. -/
def Obligations.SpecWordsDecode : Prop :=
  decodeTableWord 16 0x6A05 = some (.ldByte 0xA 0x05#8) ∧ decodeTableWord 16 0x6B03 = some (.ldByte 0xB 0x03#8) ∧
  decodeTableWord 16 0x8AB4 = some (.addReg 0xA 0xB) ∧ decodeTableWord 16 0x00E0 = some .cls ∧
  decodeTableWord 16 0x00EE = some .ret ∧ decodeTableWord 16 0xA300 = some (.ldI 0x300#12) ∧
  decodeTableWord 16 0xD015 = some (.drw 0 1 5#4) ∧ decodeTableWord 16 0x1234 = some (.jp 0x234#12) ∧
  decodeTableWord 16 0x3A08 = some (.seByte 0xA 0x08#8) ∧ decodeTableWord 16 0x5127 = some (.seReg 1 2 7#4) ∧
  decodeTableWord 16 0xE1A1 = some (.sknp 1) ∧ decodeTableWord 16 0xF255 = some (.storeRegs 2) ∧
  decodeTableWord 16 0x8128 = none ∧ bytesOfOp 0x6A05#16 = [0x6A#8, 0x05#8]

/-- Decoding an encoded well-formed instruction gives it back, for every operand value (R61, R62, R65, R68, R74). -/
def Obligations.DecodeEncodeAgree : Prop :=
  ∀ i : Instr, i.wf = true → decode (encode i) = .ok i

/-- Every word that decodes is the encoding of what it decodes to, which is well-formed: each word has one meaning. -/
def Obligations.EncodeDecodeAgree : Prop :=
  ∀ (op : Word) (i : Instr), decode op = .ok i → i.wf = true ∧ encode i = op

/-- The unrecognized words are exactly the four classes of R70 (which the spec marks as derived), fields read as numbers.
The clause on the E-group rests on D10, that on 0nnn on D12. -/
def Obligations.UnrecognizedWordsExactly : Prop :=
  ∀ op : Word, unrecognizedWord op = true ↔
    (op.toNat / 0x1000 = 0x0 ∧ op.toNat ≠ 0x00E0 ∧ op.toNat ≠ 0x00EE) ∨
    (op.toNat / 0x1000 = 0x8 ∧ op.toNat % 0x10 ∈ [0x8, 0x9, 0xA, 0xB, 0xC, 0xD, 0xF]) ∨
    (op.toNat / 0x1000 = 0xE ∧ op.toNat % 0x100 ∉ [0x9E, 0xA1]) ∨
    (op.toNat / 0x1000 = 0xF ∧ op.toNat % 0x100 ∉ [0x07, 0x0A, 0x15, 0x18, 0x1E, 0x29, 0x33, 0x55, 0x65])

/-- R68: the decoder gives an instruction of the first row whose (op AND mask) = match, and none where no row matches. -/
def Obligations.DecoderTakesFirstRow : Prop :=
  ∀ op : Word,
    (∀ i : Instr, decode op = .ok i → firstRow op = some i.row) ∧
    (∀ e : Reject, decode op = .error e → firstRow op = none)

/-! ### The Step and the other events -/

/-- R64: a Step whose two bytes at PC decode to an instruction is that instruction's meaning, applied to the state with
STARTED set and the output ports clear, the Step's inputs then used up; and the instruction is well-formed. The event list
and the counter of Steps are the model's (log 2, log 3), the outputs kept in State too (log 4). -/
def Obligations.StepRunsDecodedInstruction : Prop :=
  ∀ (s : State) (hi lo : Byte) (i : Instr), s.ready → s.mem.read s.pc.toNat = some hi →
    s.mem.read (s.pc.toNat + 1) = some lo → decode (opOfBytes hi lo) = .ok i →
    i.wf = true ∧
    step s = mapNext (fun t => { t with host := t.host.tail, draws := t.draws + 1 })
      (exec i { s with started := true, out := { diag := none, wait := false, keyAck := false } })

/-- R64, R69, R70: a Step on an unrecognized word advances PC by 2 and emits the opcode on the diagnostic port; nothing else
changes (STARTED is the Step's own, R64), no fault is latched. The event list and the counter of Steps that the Step uses up
are the model's (log 2, log 3), the outputs kept in State too (log 4); which words are unrecognized rests on D10 (log 9), D12
(log 11) and D13 (log 8). -/
def Obligations.StepOnUnrecognizedWord : Prop :=
  ∀ (s : State) (op : Word), s.ready → s.opcodeAtPc op → unrecognizedWord op = true →
    step s = .next { s with
      pc := s.pc + 2#16
      started := true
      out := { diag := some op, wait := false, keyAck := false }
      host := s.host.tail
      draws := s.draws + 1 }

/-- R69, R70 (a): the row 0nnn reports its word and advances PC by 2. D12. -/
def Obligations.UnrecognizedRowReports : Prop :=
  ∀ (nnn : Addr12) (s : State), ∃ t op, exec (.sys nnn) s = .next t ∧ t.out.diag = some op ∧ op.toNat = nnn.toNat ∧
    t.out.wait = false ∧ t.out.keyAck = false ∧ t.pc = s.pc + 2#16 ∧ Frame { out := true } s t

/-- R44: the fetch is big-endian wherever both bytes exist, PC odd or even; with PC at 0xFFF or more it faults, and the
Step leaves nothing but STARTED and the latch (R64 steps 2, 3 and 8, R132; the fault is D7, D8, log 13). The inputs it uses
up are the model's (log 2, log 3), the quiet outputs too (log 4). That PC needs no alignment R22 marks as derived. -/
def Obligations.FetchIsBigEndianOrFaults : Prop :=
  ∀ s : State,
    (s.pc.toNat < 0xFFF → ∃ op, s.fetch = .ok op ∧ s.opcodeAtPc op) ∧
    (0xFFF ≤ s.pc.toNat → s.fetch = .error .fetchOutOfRange ∧
      (s.ready → step s = .next (s.faulted .fetchOutOfRange)))

/-- Every event completes: no step of the core stops the machine (R7, R157: nothing in the core is fatal). That a fault is
a next state with the latch set is the model's choice (log 5). -/
def Obligations.EveryEventCompletes : Prop :=
  ∀ s : State, ∃ t, step s = .next t

/-- R30, R132, R134 (D8): while FAULT is latched a Step, a Tick and a Load change no state and a Step emits nothing; a Reset
clears the latch. -/
def Obligations.FaultFreezesUntilReset : Prop :=
  ∀ (s : State) (f : FaultRecord), s.fault = some f → ∃ t, step s = .next t ∧
    ((∀ es, s.host ≠ .reset :: es) → SameCore s t) ∧
    (s.stepIsNext = true → t.out = { diag := none, wait := false, keyAck := false }) ∧
    (∀ es, s.host = .reset :: es → t.fault = none ∧ t.started = false)

/-- R132 (D8): whatever event latches a fault is a Step that left everything else as it was, STARTED apart; the latch holds
the PC of the instruction, which PC still is, and the fault port shows it. The inputs the Step uses up are the model's (log 2,
log 3), the quiet outputs too (log 4). -/
def Obligations.FaultsArePrecise : Prop :=
  ∀ (s t : State) (f : FaultRecord), s.fault = none → step s = .next t → t.fault = some f →
    s.stepIsNext = true ∧ f.pc = s.pc ∧ t = s.faulted f.cause ∧ t.ports.fault = some f

/-- R131 (D5, D6, D7, D35): each cause is latched exactly under its condition, by no other instruction, with the PC of the
instruction; the codes are 1 to 4. -/
def Obligations.FaultsExactlyWhere : Prop :=
  (faultCode .fetchOutOfRange = 1 ∧ faultCode .dataOutOfRange = 2 ∧ faultCode .stackOverflow = 3 ∧
    faultCode .stackUnderflow = 4) ∧
  ∀ s : State, s.ready → ∃ t, step s = .next t ∧
    (t.fault = some { cause := .fetchOutOfRange, pc := s.pc } ↔ 0xFFF ≤ s.pc.toNat) ∧
    (t.fault = some { cause := .dataOutOfRange, pc := s.pc } ↔
      (∃ x y n, s.current = some (.drw x y n) ∧ 0 < n.toNat ∧ 0x1000 ≤ s.i.toNat + n.toNat - 1) ∨
      (∃ x, s.current = some (.ldB x) ∧ 0x1000 ≤ s.i.toNat + 2) ∨
      (∃ x, s.current = some (.storeRegs x) ∧ 0x1000 ≤ s.i.toNat + x.val) ∨
      (∃ x, s.current = some (.loadRegs x) ∧ 0x1000 ≤ s.i.toNat + x.val)) ∧
    (t.fault = some { cause := .stackOverflow, pc := s.pc } ↔
      (∃ nnn, s.current = some (.call nnn)) ∧ s.sp = 15) ∧
    (t.fault = some { cause := .stackUnderflow, pc := s.pc } ↔ s.current = some .ret ∧ s.sp = -1) ∧
    (∀ f, t.fault = some f → f.pc = s.pc)

/-- Every event keeps the invariant: memory canonical, PC at most 0x10FE (R22, which the spec marks as derived), stack slots
at most 0x1000, the latch consistent with PC (R132). -/
def Obligations.InvariantKept : Prop :=
  ∀ s t : State, s.Inv → step s = .next t → t.Inv

/-- The invariant holds after Reset, whatever FONT is (R34, R150). -/
def Obligations.ResetHasInvariant : Prop :=
  ∀ font : Font, (State.resetWith font).Inv

/-- R140, R141: only LD Vx,K depends on the key input and only RND on the random input; every other instruction does the
same whatever the host supplies now or later. -/
def Obligations.InputsReadOnlyByKeyAndRandom : Prop :=
  ∀ (i : Instr) (s : State) (h : List HostEvent) (d : Nat), (∀ x, i ≠ .ldVxK x) → (∀ x kk, i ≠ .rnd x kk) →
    exec i { s with host := h, draws := d } = mapNext (fun t => { t with host := h, draws := d }) (exec i s)

/-- R139 (e), R140, R142 (D1, D9, D19): the outputs of a Step that is not frozen. The diagnostic carries the word at PC
exactly when that word is unrecognized; wait exactly when LD Vx,K has no key; acknowledge exactly when it takes one. -/
def Obligations.OutputsOfStep : Prop :=
  ∀ s : State, s.ready → ∃ t, step s = .next t ∧
    (∀ op, t.out.diag = some op ↔ s.opcodeAtPc op ∧ unrecognizedWord op = true) ∧
    (t.out.wait = true ↔ (∃ x, s.current = some (.ldVxK x)) ∧ s.key = none) ∧
    (t.out.keyAck = true ↔ (∃ x, s.current = some (.ldVxK x)) ∧ s.key ≠ none)

/-! ### Who writes what -/

/-- R29, R109 (b): a pixel changes only by Reset, CLS or DRW. -/
def Obligations.FramebufferWriters : Prop :=
  ∀ (s t : State) (c : Fin 64) (r : Fin 32), step s = .next t → t.fb.pixel c r ≠ s.fb.pixel c r →
    (∃ es, s.host = .reset :: es) ∨
    (s.ready ∧ (s.current = some .cls ∨ ∃ x y n, s.current = some (.drw x y n)))

/-- R33, R40, R53: a byte of memory changes only by Reset, by a Load before the first Step within the image's place, or by
LD B or LD [I],Vx within the bytes they store to. -/
def Obligations.MemoryWriters : Prop :=
  ∀ (s t : State) (a : Nat), step s = .next t → t.mem.read a ≠ s.mem.read a →
    (∃ es, s.host = .reset :: es) ∨
    (∃ image es, s.host = .load image :: es ∧ s.started = false ∧ s.fault = none ∧
      0x200 ≤ a ∧ a < 0x200 + min image.length 0xE00) ∨
    (s.ready ∧ ∃ x, s.current = some (.ldB x) ∧ s.i.toNat ≤ a ∧ a < s.i.toNat + 3) ∨
    (s.ready ∧ ∃ x, s.current = some (.storeRegs x) ∧ s.i.toNat ≤ a ∧ a ≤ s.i.toNat + x.val)

/-- R21, R33: a general register changes only by Reset or by an instruction that names it as destination, VF moreover by the
six instructions with a flag. -/
def Obligations.RegisterWriters : Prop :=
  ∀ (s t : State) (r : Reg), step s = .next t → t.reg r ≠ s.reg r →
    (∃ es, s.host = .reset :: es) ∨ (s.ready ∧ ∃ i, s.current = some i ∧ i.mayWrite r = true)

/-- R23: I changes only by Reset, LD I,addr, ADD I,Vx or LD F,Vx. -/
def Obligations.IndexRegisterWriters : Prop :=
  ∀ s t : State, step s = .next t → t.i ≠ s.i →
    (∃ es, s.host = .reset :: es) ∨
    (s.ready ∧ ((∃ nnn, s.current = some (.ldI nnn)) ∨ (∃ x, s.current = some (.addIVx x)) ∨
      ∃ x, s.current = some (.ldF x)))

/-- R24, R25, R138: DT changes only by Reset, Tick or LD DT,Vx; ST only by Reset, Tick or LD ST,Vx. -/
def Obligations.TimerWriters : Prop :=
  ∀ s t : State, step s = .next t →
    (t.dt ≠ s.dt → (∃ es, s.host = .reset :: es) ∨ (∃ es, s.host = .tick :: es) ∨
      (s.ready ∧ ∃ x, s.current = some (.ldDtVx x))) ∧
    (t.st ≠ s.st → (∃ es, s.host = .reset :: es) ∨ (∃ es, s.host = .tick :: es) ∨
      (s.ready ∧ ∃ x, s.current = some (.ldStVx x)))

/-- R26, R27: a stack slot changes only by Reset or CALL, SP only by Reset, CALL or RET. -/
def Obligations.StackWriters : Prop :=
  ∀ s t : State, step s = .next t →
    (t.stack ≠ s.stack → (∃ es, s.host = .reset :: es) ∨ (s.ready ∧ ∃ nnn, s.current = some (.call nnn))) ∧
    (t.sp ≠ s.sp → (∃ es, s.host = .reset :: es) ∨
      (s.ready ∧ ((∃ nnn, s.current = some (.call nnn)) ∨ s.current = some .ret)))

/-! ### Control flow -/

/-- R80: JP addr goes to the address; a target of 0xFFF is fetched from in vain by the next Step; a jump to its own address
changes no state. -/
def Obligations.JumpGoesToAddress : Prop :=
  ∀ (nnn : Addr12) (s : State),
    ∃ t, exec (.jp nnn) s = .next t ∧ t.pc.toNat = nnn.toNat ∧ Frame {} s t ∧
      (nnn.toNat = 0xFFF → t.fetch = .error .fetchOutOfRange) ∧ (nnn.toNat = s.pc.toNat → t = s)

/-- R83 (D31): JP V0,addr goes to addr + V0 with no reduction. -/
def Obligations.JumpPlusV0 : Prop :=
  ∀ (nnn : Addr12) (s : State), ∃ t, exec (.jpV0 nnn) s = .next t ∧
    t.pc.toNat = nnn.toNat + (s.reg 0).toNat ∧ Frame {} s t

/-- R81 (overflow D5): CALL below depth 16 stores the address after it in the next slot and goes to addr; at depth 16 it
faults and changes nothing else. -/
def Obligations.CallPushesOrOverflows : Prop :=
  ∀ (nnn : Addr12) (s : State),
    (s.sp < 15 → ∃ t, exec (.call nnn) s = .next t ∧ t.sp = s.sp + 1 ∧
      (∀ k : Fin 16, t.stack[k] = if (k.val : Int) = s.sp + 1 then s.pc + 2#16 else s.stack[k]) ∧
      t.pc.toNat = nnn.toNat ∧ Frame { stack := true } s t) ∧
    (s.sp = 15 → exec (.call nnn) s = .next { s with fault := some { cause := .stackOverflow, pc := s.pc } })

/-- R82 (underflow D5): RET takes PC from the top slot, which keeps its value; on an empty stack it faults and changes
nothing else. -/
def Obligations.RetPopsOrUnderflows : Prop :=
  ∀ s : State,
    (0 ≤ s.sp → ∃ t, exec .ret s = .next t ∧ t.sp = s.sp - 1 ∧ t.stack = s.stack ∧
      (∀ k : Fin 16, (k.val : Int) = s.sp → t.pc = s.stack[k]) ∧ Frame { stack := true } s t) ∧
    (s.sp = -1 → exec .ret s = .next { s with fault := some { cause := .stackUnderflow, pc := s.pc } })

/-- R82's property of the source: a RET that finds the stack as a CALL left it, whatever else has changed since, goes to the
instruction after the CALL, at every depth 1 to 16, and restores SP. -/
def Obligations.CallThenRetReturns : Prop :=
  ∀ (nnn : Addr12) (s t u : State), s.sp < 15 → exec (.call nnn) s = .next t → u.stack = t.stack → u.depth = t.depth →
    ∃ w, exec .ret u = .next w ∧ w.pc = s.pc + 2#16 ∧ w.sp = s.sp

/-- R84, R85: the skips on a byte go 4 on when their condition holds, else 2; nothing else changes. -/
def Obligations.SkipsOnByte : Prop :=
  ∀ (x : Reg) (kk : Byte) (s : State),
    (∃ t, exec (.seByte x kk) s = .next t ∧
      t.pc = s.pc + (if (s.reg x).toNat = kk.toNat then 4#16 else 2#16) ∧ Frame {} s t) ∧
    (∃ t, exec (.sneByte x kk) s = .next t ∧
      t.pc = s.pc + (if (s.reg x).toNat = kk.toNat then 2#16 else 4#16) ∧ Frame {} s t)

/-- R86, R87, with R66: the skips on two registers, the trailing nibble whatever it is. -/
def Obligations.SkipsOnRegisters : Prop :=
  ∀ (x y : Reg) (n : Nibble) (s : State),
    (∃ t, exec (.seReg x y n) s = .next t ∧
      t.pc = s.pc + (if (s.reg x).toNat = (s.reg y).toNat then 4#16 else 2#16) ∧ Frame {} s t) ∧
    (∃ t, exec (.sneReg x y n) s = .next t ∧
      t.pc = s.pc + (if (s.reg x).toNat = (s.reg y).toNat then 2#16 else 4#16) ∧ Frame {} s t)

/-! ### Registers and arithmetic -/

/-- R90: LD Vx,byte, whose number 6 the source shows, writes kk to Vx and nothing else, VF only as Vx. -/
def Obligations.ImmediateLoad : Prop :=
  ∀ (x : Reg) (kk : Byte) (s : State), decode (0x6#4 ++ (BitVec.ofFin (w := 4) x ++ kk)) = .ok (.ldByte x kk) ∧
    ∃ t, exec (.ldByte x kk) s = .next t ∧ t.reg x = kk ∧ t.pc = s.pc + 2#16 ∧ Frame { regs := [x] } s t

/-- R91, R92: ADD Vx,byte adds modulo 256 and writes no flag; LD Vx,Vy copies, and with x = y nothing but PC changes. -/
def Obligations.ImmediateAddAndRegisterCopy : Prop :=
  ∀ (x y : Reg) (kk : Byte) (s : State),
    (∃ t, exec (.addByte x kk) s = .next t ∧ (t.reg x).toNat = ((s.reg x).toNat + kk.toNat) % 256 ∧
      t.pc = s.pc + 2#16 ∧ Frame { regs := [x] } s t) ∧
    (∃ t, exec (.ldReg x y) s = .next t ∧ t.reg x = s.reg y ∧ t.pc = s.pc + 2#16 ∧ Frame { regs := [x] } s t ∧
      (x = y → Frame {} s t))

/-- R93, R94, R95 (that VF is not written is D28): OR, AND and XOR bit by bit. -/
def Obligations.BitwiseLogic : Prop :=
  ∀ (x y : Reg) (s : State),
    (∃ t, exec (.orReg x y) s = .next t ∧
      (∀ k, (t.reg x).getLsbD k = ((s.reg x).getLsbD k || (s.reg y).getLsbD k)) ∧
      t.pc = s.pc + 2#16 ∧ Frame { regs := [x] } s t) ∧
    (∃ t, exec (.andReg x y) s = .next t ∧
      (∀ k, (t.reg x).getLsbD k = ((s.reg x).getLsbD k && (s.reg y).getLsbD k)) ∧
      t.pc = s.pc + 2#16 ∧ Frame { regs := [x] } s t) ∧
    (∃ t, exec (.xorReg x y) s = .next t ∧
      (∀ k, (t.reg x).getLsbD k = ((s.reg x).getLsbD k ^^ (s.reg y).getLsbD k)) ∧
      t.pc = s.pc + 2#16 ∧ Frame { regs := [x] } s t)

/-- R96: ADD Vx,Vy, x not VF, its number the source's: the sum modulo 256, VF the carry. That y = VF reads the VF of before is
D2 (R8, R103; log 12); x = VF is FlagRegisterAsDestination's. -/
def Obligations.AddSetsCarry : Prop :=
  ∀ (x y : Reg) (s : State), x ≠ 0xF →
    decode (encXY 0x8#4 x y 0x4#4) = .ok (.addReg x y) ∧
    ∃ t, exec (.addReg x y) s = .next t ∧
      (t.reg x).toNat = ((s.reg x).toNat + (s.reg y).toNat) % 256 ∧
      (t.reg 0xF).toNat = (if 255 < (s.reg x).toNat + (s.reg y).toNat then 1 else 0) ∧
      t.pc = s.pc + 2#16 ∧ Frame { regs := [x, 0xF] } s t

/-- R97, R99: SUB and SUBN, x not VF: the difference modulo 256, VF set exactly when the minuend is strictly greater. That
y = VF reads the VF of before is D2 (R8, R103; log 12); x = VF is FlagRegisterAsDestination's. -/
def Obligations.SubtractSetsStrictlyGreater : Prop :=
  ∀ (x y : Reg) (s : State), x ≠ 0xF →
    (∃ t, exec (.subReg x y) s = .next t ∧
      ((t.reg x).toNat : Int) = ((s.reg x).toNat - (s.reg y).toNat : Int) % 256 ∧
      (t.reg 0xF).toNat = (if (s.reg y).toNat < (s.reg x).toNat then 1 else 0) ∧
      t.pc = s.pc + 2#16 ∧ Frame { regs := [x, 0xF] } s t) ∧
    (∃ t, exec (.subnReg x y) s = .next t ∧
      ((t.reg x).toNat : Int) = ((s.reg y).toNat - (s.reg x).toNat : Int) % 256 ∧
      (t.reg 0xF).toNat = (if (s.reg x).toNat < (s.reg y).toNat then 1 else 0) ∧
      t.pc = s.pc + 2#16 ∧ Frame { regs := [x, 0xF] } s t)

/-- R98, R100: SHR and SHL, x not VF: by one place, VF the bit shifted out, Vy of no account. -/
def Obligations.ShiftsByOne : Prop :=
  ∀ (x y : Reg) (s : State), x ≠ 0xF →
    (∃ t, exec (.shr x y) s = .next t ∧
      (t.reg x).toNat = (s.reg x).toNat / 2 ∧ (t.reg 0xF).toNat = (s.reg x).toNat % 2 ∧
      t.pc = s.pc + 2#16 ∧ Frame { regs := [x, 0xF] } s t) ∧
    (∃ t, exec (.shl x y) s = .next t ∧
      (t.reg x).toNat = (s.reg x).toNat * 2 % 256 ∧ (t.reg 0xF).toNat = (s.reg x).toNat / 128 ∧
      t.pc = s.pc + 2#16 ∧ Frame { regs := [x, 0xF] } s t)

/-- R103 (D2, D3; log 12): the five flag-writing instructions with x = VF leave the result in VF, computed from the VF of
before; the flag is lost. -/
def Obligations.FlagRegisterAsDestination : Prop :=
  ∀ (y : Reg) (s : State),
    (∃ t, exec (.addReg 0xF y) s = .next t ∧
      (t.reg 0xF).toNat = ((s.reg 0xF).toNat + (s.reg y).toNat) % 256 ∧
      t.pc = s.pc + 2#16 ∧ Frame { regs := [0xF] } s t) ∧
    (∃ t, exec (.subReg 0xF y) s = .next t ∧
      ((t.reg 0xF).toNat : Int) = ((s.reg 0xF).toNat - (s.reg y).toNat : Int) % 256 ∧
      t.pc = s.pc + 2#16 ∧ Frame { regs := [0xF] } s t) ∧
    (∃ t, exec (.shr 0xF y) s = .next t ∧ (t.reg 0xF).toNat = (s.reg 0xF).toNat / 2 ∧
      t.pc = s.pc + 2#16 ∧ Frame { regs := [0xF] } s t) ∧
    (∃ t, exec (.subnReg 0xF y) s = .next t ∧
      ((t.reg 0xF).toNat : Int) = ((s.reg y).toNat - (s.reg 0xF).toNat : Int) % 256 ∧
      t.pc = s.pc + 2#16 ∧ Frame { regs := [0xF] } s t) ∧
    (∃ t, exec (.shl 0xF y) s = .next t ∧ (t.reg 0xF).toNat = (s.reg 0xF).toNat * 2 % 256 ∧
      t.pc = s.pc + 2#16 ∧ Frame { regs := [0xF] } s t)

/-- R101 (D21): RND Vx,byte masks the Step's random input, which is the host's where it lists the Step and else a free value
(log 3). -/
def Obligations.RandomIsMasked : Prop :=
  ∀ (x : Reg) (kk : Byte) (s : State), ∃ t, exec (.rnd x kk) s = .next t ∧
    (∀ k, (t.reg x).getLsbD k = (s.rnd.getLsbD k && kk.getLsbD k)) ∧
    (∀ key r es, s.host = .step key r :: es → s.rnd = r) ∧
    t.pc = s.pc + 2#16 ∧ Frame { regs := [x] } s t

/-! ### Display -/

/-- R105: CLS clears every pixel and changes nothing else. -/
def Obligations.ClearScreen : Prop :=
  ∀ s : State, decode 0x00E0#16 = .ok .cls ∧
    ∃ t, exec .cls s = .next t ∧ (∀ c r, t.fb.pixel c r = false) ∧ t.pc = s.pc + 2#16 ∧ Frame { fb := true } s t

/-- R106, R107, R108 (D2, log 12; D14, log 14; D26, log 24): DRW toggles exactly the pixels under a 1 bit of the sprite,
columns modulo 64 and rows modulo 32, and sets VF to 1 exactly when a pixel went from 1 to 0, else to 0. That no pixel is
toggled twice R106 marks as derived. -/
def Obligations.DrawTogglesCoveredPixels : Prop :=
  ∀ (x y : Reg) (n : Nibble) (s : State), n.toNat = 0 ∨ s.i.toNat + n.toNat ≤ 0x1000 →
    ∃ t, exec (.drw x y n) s = .next t ∧
      (∀ c r, t.fb.pixel c r = true ↔
        ¬ (s.fb.pixel c r = true ↔ Covered s (s.reg x).toNat (s.reg y).toNat n.toNat c r)) ∧
      ((∃ c r, s.fb.pixel c r = true ∧ t.fb.pixel c r = false) → t.reg 0xF = 1#8) ∧
      (¬ (∃ c r, s.fb.pixel c r = true ∧ t.fb.pixel c r = false) → t.reg 0xF = 0#8) ∧
      t.pc = s.pc + 2#16 ∧ Frame { regs := [0xF], fb := true } s t

/-- R106 (D6, D8, D26): DRW with a sprite byte at 0x1000 or above faults and changes nothing else, VF included; with no rows
it cannot fault, draws nothing and clears VF. -/
def Obligations.DrawEdges : Prop :=
  ∀ (x y : Reg) (n : Nibble) (s : State),
    (0 < n.toNat → 0x1000 ≤ s.i.toNat + n.toNat - 1 →
      exec (.drw x y n) s = .next { s with fault := some { cause := .dataOutOfRange, pc := s.pc } }) ∧
    (n.toNat = 0 → ∃ t, exec (.drw x y n) s = .next t ∧ t.reg 0xF = 0#8 ∧ t.pc = s.pc + 2#16 ∧
      Frame { regs := [0xF] } s t)

/-- R106, R107, R109 (a), whose precise form the spec marks as derived from R106: a second DRW of the same sprite at the same
place restores the framebuffer, and sets VF to 1 exactly when a pixel under a 1 bit of the sprite was set after the first,
else to 0. `Covered` takes bit 7 leftmost (D14, log 14); that x or y = VF reads the VF of before is D2 (log 12), the form with
no rows D26 (log 24). -/
def Obligations.DrawTwiceRestores : Prop :=
  ∀ (x y : Reg) (n : Nibble) (s t u : State), n.toNat = 0 ∨ s.i.toNat + n.toNat ≤ 0x1000 →
    exec (.drw x y n) s = .next t → u.fb = t.fb → u.reg x = s.reg x → u.reg y = s.reg y → u.i = s.i →
    (∀ a, u.mem.read a = s.mem.read a) →
    ∃ w, exec (.drw x y n) u = .next w ∧ (∀ c r, w.fb.pixel c r = s.fb.pixel c r) ∧
      ((∃ c r, Covered s (s.reg x).toNat (s.reg y).toNat n.toNat c r ∧ t.fb.pixel c r = true) → w.reg 0xF = 1#8) ∧
      (¬ (∃ c r, Covered s (s.reg x).toNat (s.reg y).toNat n.toNat c r ∧ t.fb.pixel c r = true) → w.reg 0xF = 0#8)

/-! ### Keys and timers -/

/-- R110 (D20), R111: SKP only advances PC and SKNP always skips, whatever the key input, x and Vx are. -/
def Obligations.KeySkipStubs : Prop :=
  ∀ (x : Reg) (s : State),
    (∃ t, exec (.skp x) s = .next t ∧ t.pc = s.pc + 2#16 ∧ Frame {} s t) ∧
    (∃ t, exec (.sknp x) s = .next t ∧ t.pc = s.pc + 4#16 ∧ Frame {} s t)

/-- R112, R114, R115: the timer moves copy all 8 bits and change nothing else. -/
def Obligations.TimerMoves : Prop :=
  ∀ (x : Reg) (s : State),
    (∃ t, exec (.ldVxDt x) s = .next t ∧ t.reg x = s.dt ∧ t.pc = s.pc + 2#16 ∧ Frame { regs := [x] } s t) ∧
    (∃ t, exec (.ldDtVx x) s = .next t ∧ t.dt = s.reg x ∧ t.pc = s.pc + 2#16 ∧ Frame { dt := true } s t) ∧
    (∃ t, exec (.ldStVx x) s = .next t ∧ t.st = s.reg x ∧ t.pc = s.pc + 2#16 ∧ Frame { st := true } s t)

/-- R113 (D19): with a key LD Vx,K takes the whole byte, acknowledges it and advances; without one nothing but the wait
status changes, PC included. Where the host lists the Step, the key is the one listed. -/
def Obligations.KeyTakenOrWait : Prop :=
  ∀ (x : Reg) (s : State),
    (∀ k, s.key = some k → ∃ t, exec (.ldVxK x) s = .next t ∧ t.reg x = k ∧ t.pc = s.pc + 2#16 ∧
      t.out = { diag := none, wait := false, keyAck := true } ∧ Frame { regs := [x], out := true } s t) ∧
    (s.key = none → exec (.ldVxK x) s = .next { s with out := { diag := none, wait := true, keyAck := false } }) ∧
    (∀ key r es, s.host = .step key r :: es → s.key = key)

/-! ### Index register and memory -/

/-- R120: LD I,addr, whose number A the source shows, sets I to the address. -/
def Obligations.IndexLoad : Prop :=
  ∀ (nnn : Addr12) (s : State), decode (0xA#4 ++ nnn) = .ok (.ldI nnn) ∧
    ∃ t, exec (.ldI nnn) s = .next t ∧ t.i.toNat = nnn.toNat ∧ t.pc = s.pc + 2#16 ∧ Frame { i := true } s t

/-- R121, R122 (D16, D17): ADD I,Vx adds modulo 65536 and writes no flag; LD F,Vx sets I to five times all 8 bits of Vx. -/
def Obligations.IndexAddAndGlyphAddress : Prop :=
  ∀ (x : Reg) (s : State),
    (∃ t, exec (.addIVx x) s = .next t ∧ t.i.toNat = (s.i.toNat + (s.reg x).toNat) % 65536 ∧
      t.pc = s.pc + 2#16 ∧ Frame { i := true } s t) ∧
    (∃ t, exec (.ldF x) s = .next t ∧ t.i.toNat = (s.reg x).toNat * 5 ∧
      t.pc = s.pc + 2#16 ∧ Frame { i := true } s t)

/-- R123 (fault D6): LD B,Vx stores hundreds, tens and ones at I, I + 1, I + 2; out of range it faults and changes nothing
else. -/
def Obligations.DecimalDigitsStored : Prop :=
  ∀ (x : Reg) (s : State),
    (s.mem.wf = true → s.i.toNat + 2 < 0x1000 → ∃ t h d o, exec (.ldB x) s = .next t ∧
      t.mem.read s.i.toNat = some h ∧ h.toNat = (s.reg x).toNat / 100 ∧
      t.mem.read (s.i.toNat + 1) = some d ∧ d.toNat = (s.reg x).toNat / 10 % 10 ∧
      t.mem.read (s.i.toNat + 2) = some o ∧ o.toNat = (s.reg x).toNat % 10 ∧
      MemSameOutside s.i.toNat 3 s t ∧ t.pc = s.pc + 2#16 ∧ Frame { mem := true } s t) ∧
    (0x1000 ≤ s.i.toNat + 2 →
      exec (.ldB x) s = .next { s with fault := some { cause := .dataOutOfRange, pc := s.pc } })

/-- R124 (fault D6, I unchanged D18): LD [I],Vx stores V0 to Vx at I to I + x; out of range it faults and changes nothing
else. -/
def Obligations.RegistersStored : Prop :=
  ∀ (x : Reg) (s : State),
    (s.mem.wf = true → s.i.toNat + x.val < 0x1000 → ∃ t, exec (.storeRegs x) s = .next t ∧
      (∀ k : Reg, k ≤ x → t.mem.read (s.i.toNat + k.val) = some (s.reg k)) ∧
      MemSameOutside s.i.toNat (x.val + 1) s t ∧ t.pc = s.pc + 2#16 ∧ Frame { mem := true } s t) ∧
    (0x1000 ≤ s.i.toNat + x.val →
      exec (.storeRegs x) s = .next { s with fault := some { cause := .dataOutOfRange, pc := s.pc } })

/-- R125 (fault D6, I unchanged D18): LD Vx,[I] loads V0 to Vx from I to I + x, the registers above x unchanged; out of range
it faults and changes nothing else. -/
def Obligations.RegistersLoaded : Prop :=
  ∀ (x : Reg) (s : State),
    (s.i.toNat + x.val < 0x1000 → ∃ t, exec (.loadRegs x) s = .next t ∧
      (∀ k : Reg, k ≤ x → s.mem.read (s.i.toNat + k.val) = some (t.reg k)) ∧
      t.pc = s.pc + 2#16 ∧ Frame { regs := (List.finRange 16).filter (· ≤ x) } s t) ∧
    (0x1000 ≤ s.i.toNat + x.val →
      exec (.loadRegs x) s = .next { s with fault := some { cause := .dataOutOfRange, pc := s.pc } })

/-- R51 (derived, the spec says): a LD [I],Vx with I at the next instruction is seen by the very next fetch, which reads V0 as
the high and V1 as the low byte. -/
def Obligations.StoreSeenByNextFetch : Prop :=
  ∀ (s : State) (x : Reg), s.ready → s.mem.wf = true → s.current = some (.storeRegs x) → 1 ≤ x.val →
    s.i.toNat = s.pc.toNat + 2 → s.i.toNat + x.val < 0x1000 →
    ∃ t, step s = .next t ∧ t.pc = s.pc + 2#16 ∧ t.fault = none ∧
      ∃ op, t.fetch = .ok op ∧ op.toNat = (s.reg 0).toNat * 256 + (s.reg 1).toNat

/-! ### Reset, Load, Tick, the end of a run -/

/-- R28: 4096 addressable cells, each holding after Reset the font below 0x050 and 0x00 everywhere else. -/
def Obligations.ResetMemory : Prop :=
  ∀ (font : Font) (a : Nat),
    (∀ h : a < 80, (State.resetWith font).mem.read a = some (fontByte font ⟨a, h⟩)) ∧
    (80 ≤ a → a < 0x1000 → (State.resetWith font).mem.read a = some 0#8) ∧
    (0x1000 ≤ a → (State.resetWith font).mem.read a = none)

/-- R34, R150 (SP = -1 is D4, the zeroed slots D25): the other state after Reset. -/
def Obligations.ResetRegisters : Prop :=
  ∀ font : Font, (∀ r : Reg, (State.resetWith font).reg r = 0#8) ∧ (State.resetWith font).pc.toNat = 0x200 ∧
    (State.resetWith font).i = 0#16 ∧ (State.resetWith font).dt = 0#8 ∧ (State.resetWith font).st = 0#8 ∧
    (State.resetWith font).sp = -1 ∧ (∀ k : Fin 16, (State.resetWith font).stack[k] = 0#16) ∧
    (∀ c r, (State.resetWith font).fb.pixel c r = false) ∧
    (State.resetWith font).fault = none ∧ (State.resetWith font).started = false

/-- R150, R134 (repeatable Reset D1): a Reset event gives the state after Reset with the same FONT, from any state. -/
def Obligations.ResetEventResets : Prop :=
  ∀ (s : State) (es : List HostEvent), s.host = .reset :: es → ∃ t, step s = .next t ∧
    SameCore (State.resetWith s.mem.font) t ∧ t.out = { diag := none, wait := false, keyAck := false } ∧ t.host = es

/-- R54: an image of at most 3584 bytes loaded after Reset stands unchanged from 0x200, and the bytes beyond it are zero as
Reset left them. -/
def Obligations.LoadPlacesImage : Prop :=
  ∀ (font : Font) (image : List Byte) (es : List HostEvent), image.length ≤ 3584 →
    ∃ t, step { State.resetWith font with host := .load image :: es } = .next t ∧
      (∀ (k : Nat) (h : k < image.length), t.mem.read (0x200 + k) = some image[k]) ∧
      (∀ a, 0x200 + image.length ≤ a → a < 0x1000 → t.mem.read a = some 0#8)

/-- R53 (when it is legal D24): a Load copies at most 0xE00 bytes of the image to 0x200 onwards and changes nothing else;
after the first Step, or while faulted, it is ignored. -/
def Obligations.LoadTruncatesOrIsIgnored : Prop :=
  ∀ (s : State) (image : List Byte) (es : List HostEvent), s.host = .load image :: es → ∃ t, step s = .next t ∧
    t = { s with mem := t.mem, host := es } ∧ t.mem.font = s.mem.font ∧
    (s.started = true ∨ s.fault ≠ none → t.mem = s.mem) ∧
    (s.mem.wf = true → s.started = false → s.fault = none →
      (∀ (k : Nat) (h : k < image.length), k < 0xE00 → t.mem.read (0x200 + k) = some image[k]) ∧
      MemSameOutside 0x200 (min image.length 0xE00) s t)

/-- R137 (D22): a Tick takes one from each timer that is not zero and changes nothing else; while faulted it does nothing. -/
def Obligations.TickCountsDown : Prop :=
  ∀ (s : State) (es : List HostEvent), s.host = .tick :: es → ∃ t, step s = .next t ∧
    t = { s with dt := t.dt, st := t.st, host := es } ∧
    (s.fault = none → t.dt.toNat = s.dt.toNat - 1 ∧ t.st.toNat = s.st.toNat - 1) ∧
    (s.fault ≠ none → t.dt = s.dt ∧ t.st = s.st)

/-- R157 (D30; log 27): at a JP to its own address, and at LD Vx,K while the key is withheld, a Step changes no state but STARTED. -/
def Obligations.QuiescentStatesStay : Prop :=
  ∀ s : State, s.ready → (s.atSelfJump ∨ ((∃ x, s.current = some (.ldVxK x)) ∧ s.key = none)) →
    ∃ t, step s = .next t ∧ SameCore { s with started := true } t ∧ t.current = s.current
end

