-- ==== Sys2Proof/Laws/Decode.lean ====
section
/-! SUPPORT. Words and their fields as numbers: the fields of an encoded word are what was encoded, a word is rebuilt from
its fields, and a fetched word is its two bytes (30_encoding.md R61, R74; 20_memory.md R44). -/

namespace Sys2Proof

/-- A concatenation is a number in mixed base. -/
theorem append_toNat {n m : Nat} (a : BitVec n) (b : BitVec m) : (a ++ b).toNat = a.toNat * 2 ^ m + b.toNat := by
  rw [BitVec.toNat_append, ← Nat.shiftLeft_add_eq_or_of_lt b.isLt, Nat.shiftLeft_eq]

/-! ### Fields of a word -/

theorem opLead_toNat (op : Word) : (opLead op).toNat = op.toNat / 4096 := by
  have := op.isLt
  simp only [opLead, BitVec.extractLsb'_toNat, Nat.shiftRight_eq_div_pow]
  omega

theorem opX_val (op : Word) : (opX op).val = op.toNat / 256 % 16 := by
  have : (opX op).val = (op.extractLsb' 8 4).toNat := rfl
  simp only [this, BitVec.extractLsb'_toNat, Nat.shiftRight_eq_div_pow]

theorem opY_val (op : Word) : (opY op).val = op.toNat / 16 % 16 := by
  have : (opY op).val = (op.extractLsb' 4 4).toNat := rfl
  simp only [this, BitVec.extractLsb'_toNat, Nat.shiftRight_eq_div_pow]

theorem opN_toNat (op : Word) : (opN op).toNat = op.toNat % 16 := by
  simp [opN, BitVec.extractLsb'_toNat]

theorem opKk_toNat (op : Word) : (opKk op).toNat = op.toNat % 256 := by
  simp [opKk, BitVec.extractLsb'_toNat]

theorem opNnn_toNat (op : Word) : (opNnn op).toNat = op.toNat % 4096 := by
  simp [opNnn, BitVec.extractLsb'_toNat]

/-! ### Encoded words -/

theorem encA_toNat (l : Nibble) (nnn : Addr12) : (encA l nnn).toNat = l.toNat * 4096 + nnn.toNat :=
  append_toNat l nnn

theorem encXK_toNat (l : Nibble) (x : Reg) (kk : Byte) :
    (encXK l x kk).toNat = l.toNat * 4096 + x.val * 256 + kk.toNat := by
  have h := encA_toNat l (BitVec.ofFin (w := 4) x ++ kk)
  have h' : (BitVec.ofFin (w := 4) x ++ kk).toNat = x.val * 256 + kk.toNat := append_toNat _ _
  rw [h'] at h
  exact h.trans (Nat.add_assoc _ _ _).symm

theorem encXY_toNat (l : Nibble) (x y : Reg) (n : Nibble) :
    (encXY l x y n).toNat = l.toNat * 4096 + x.val * 256 + y.val * 16 + n.toNat := by
  have h := encXK_toNat l x (BitVec.ofFin (w := 4) y ++ n)
  have h' : (BitVec.ofFin (w := 4) y ++ n).toNat = y.val * 16 + n.toNat := append_toNat _ _
  rw [h'] at h
  exact h.trans (Nat.add_assoc _ _ _).symm

@[simp] theorem opLead_encA (l : Nibble) (nnn : Addr12) : opLead (encA l nnn) = l := by
  apply BitVec.eq_of_toNat_eq
  have := nnn.isLt
  rw [opLead_toNat, encA_toNat]
  omega

@[simp] theorem opNnn_encA (l : Nibble) (nnn : Addr12) : opNnn (encA l nnn) = nnn := by
  apply BitVec.eq_of_toNat_eq
  have := nnn.isLt
  rw [opNnn_toNat, encA_toNat]
  omega

@[simp] theorem opLead_encXK (l : Nibble) (x : Reg) (kk : Byte) : opLead (encXK l x kk) = l := opLead_encA l _

@[simp] theorem opX_encXK (l : Nibble) (x : Reg) (kk : Byte) : opX (encXK l x kk) = x := by
  apply Fin.ext
  have := kk.isLt
  have := x.isLt
  rw [opX_val, encXK_toNat]
  omega

@[simp] theorem opKk_encXK (l : Nibble) (x : Reg) (kk : Byte) : opKk (encXK l x kk) = kk := by
  apply BitVec.eq_of_toNat_eq
  have := kk.isLt
  rw [opKk_toNat, encXK_toNat]
  omega

@[simp] theorem opLead_encXY (l : Nibble) (x y : Reg) (n : Nibble) : opLead (encXY l x y n) = l := opLead_encA l _

@[simp] theorem opX_encXY (l : Nibble) (x y : Reg) (n : Nibble) : opX (encXY l x y n) = x := opX_encXK l x _

@[simp] theorem opY_encXY (l : Nibble) (x y : Reg) (n : Nibble) : opY (encXY l x y n) = y := by
  apply Fin.ext
  have := n.isLt
  have := y.isLt
  rw [opY_val, encXY_toNat]
  omega

@[simp] theorem opN_encXY (l : Nibble) (x y : Reg) (n : Nibble) : opN (encXY l x y n) = n := by
  apply BitVec.eq_of_toNat_eq
  have := n.isLt
  rw [opN_toNat, encXY_toNat]
  omega

/-! ### A word from its fields -/

theorem encA_fields (op : Word) : encA (opLead op) (opNnn op) = op := by
  apply BitVec.eq_of_toNat_eq
  rw [encA_toNat, opLead_toNat, opNnn_toNat]
  omega

theorem encXK_fields (op : Word) : encXK (opLead op) (opX op) (opKk op) = op := by
  apply BitVec.eq_of_toNat_eq
  rw [encXK_toNat, opLead_toNat, opX_val, opKk_toNat]
  omega

theorem encXY_fields (op : Word) : encXY (opLead op) (opX op) (opY op) (opN op) = op := by
  apply BitVec.eq_of_toNat_eq
  rw [encXY_toNat, opLead_toNat, opX_val, opY_val, opN_toNat]
  omega

/-! ### Bytes -/

theorem opOfBytes_toNat (hi lo : Byte) : (opOfBytes hi lo).toNat = hi.toNat * 256 + lo.toNat := append_toNat hi lo

theorem opOfBytes_bytesOfOp (op : Word) : opOfBytes (op.extractLsb' 8 8) (op.extractLsb' 0 8) = op := by
  apply BitVec.eq_of_toNat_eq
  have := op.isLt
  simp only [opOfBytes_toNat, BitVec.extractLsb'_toNat, Nat.shiftRight_eq_div_pow]
  omega

end Sys2Proof
end

