-- ==== Sys2Proof/Laws/Framebuffer.lean ====
section
/-! SUPPORT. The laws of the framebuffer and the compositor: a pixel read after a pixel is set; and a drawn sprite as the
toggling of a list of distinct pixels (42_display.md R106: each pixel is touched at most once per DRW). -/

namespace Sys2Proof.Machine

@[simp] theorem Framebuffer.pixel_clear (c : Fin 64) (r : Fin 32) : Framebuffer.clear.pixel c r = false := by
  simp [Framebuffer.pixel, Framebuffer.clear]

theorem Framebuffer.pixel_setPixel (fb : Framebuffer) (c c' : Fin 64) (r r' : Fin 32) (p : Bool) :
    (fb.setPixel c r p).pixel c' r' = if c' = c ∧ r' = r then p else fb.pixel c' r' := by
  by_cases hc : c' = c
  · subst hc
    by_cases hr : r' = r
    · subst hr; simp [Framebuffer.pixel, Framebuffer.setPixel]
    · have : r.val ≠ r'.val := fun h => hr (Fin.ext h.symm)
      simp [Framebuffer.pixel, Framebuffer.setPixel, hr, this]
  · have : c.val ≠ c'.val := fun h => hc (Fin.ext h.symm)
    simp [Framebuffer.pixel, Framebuffer.setPixel, hc, this]

theorem Framebuffer.ext_pixel {fb fb' : Framebuffer} (h : ∀ c r, fb.pixel c r = fb'.pixel c r) : fb = fb' := by
  cases fb with | mk a => cases fb' with | mk b =>
  congr 1
  exact Vector.ext fun c hc => Vector.ext fun r hr => h ⟨c, hc⟩ ⟨r, hr⟩

/-! ### Toggling pixels -/

@[simp] theorem Canvas.toggle_hit (p : Canvas) (c : Fin 64) (r : Fin 32) :
    (p.toggle c r).hit = (p.hit || p.fb.pixel c r) := rfl

theorem Canvas.toggle_pixel (p : Canvas) (c c' : Fin 64) (r r' : Fin 32) :
    (p.toggle c r).fb.pixel c' r' = if c' = c ∧ r' = r then !p.fb.pixel c' r' else p.fb.pixel c' r' := by
  rw [Canvas.toggle, Framebuffer.pixel_setPixel]
  split
  · rename_i h; rw [h.1, h.2]
  · rfl

/-- Toggle every pixel of a list, in order. -/
def Canvas.toggleAll (p : Canvas) (l : List (Fin 64 × Fin 32)) : Canvas :=
  l.foldl (fun q x => q.toggle x.1 x.2) p

theorem Canvas.toggleAll_append (p : Canvas) (l l' : List (Fin 64 × Fin 32)) :
    p.toggleAll (l ++ l') = (p.toggleAll l).toggleAll l' := List.foldl_append

theorem Canvas.toggleAll_pixel (p : Canvas) {l : List (Fin 64 × Fin 32)} (hl : l.Nodup) (c : Fin 64) (r : Fin 32) :
    (p.toggleAll l).fb.pixel c r = if (c, r) ∈ l then !p.fb.pixel c r else p.fb.pixel c r := by
  induction l generalizing p with
  | nil => simp [Canvas.toggleAll]
  | cons x l ih =>
    rw [List.nodup_cons] at hl
    have := ih (p.toggle x.1 x.2) hl.2
    simp only [Canvas.toggleAll, List.foldl_cons] at this ⊢
    rw [this, Canvas.toggle_pixel]
    by_cases hx : (c, r) = x
    · subst hx; simp [hl.1]
    · have : ¬ (c = x.1 ∧ r = x.2) := fun h => hx (Prod.ext h.1 h.2)
      simp [this, hx]

theorem Canvas.toggleAll_hit (p : Canvas) {l : List (Fin 64 × Fin 32)} (hl : l.Nodup) :
    (p.toggleAll l).hit = (p.hit || l.any fun x => p.fb.pixel x.1 x.2) := by
  induction l generalizing p with
  | nil => simp [Canvas.toggleAll]
  | cons x l ih =>
    rw [List.nodup_cons] at hl
    have := ih (p.toggle x.1 x.2) hl.2
    simp only [Canvas.toggleAll, List.foldl_cons] at this ⊢
    have hany : (l.any fun y => (p.toggle x.1 x.2).fb.pixel y.1 y.2) = l.any fun y => p.fb.pixel y.1 y.2 := by
      refine Bool.eq_iff_iff.2 ?_
      simp only [List.any_eq_true]
      refine exists_congr fun y => and_congr_right fun hy => ?_
      have : ¬ (y.1 = x.1 ∧ y.2 = x.2) := fun h => hl.1 (Prod.ext h.1 h.2 ▸ hy)
      rw [Canvas.toggle_pixel, if_neg this]
    rw [this, Canvas.toggle_hit, List.any_cons, Bool.or_assoc, hany]

/-! ### A sprite is a list of pixels -/

/-- The pixels one sprite row toggles. -/
def rowPixels (vx : Nat) (row : Fin 32) (b : Byte) : List (Fin 64 × Fin 32) :=
  ((List.range 8).filter (spriteBit b)).map fun c => (wrapCol (vx + c), row)

/-- The pixels a sprite toggles. -/
def spritePixels (vx vy : Nat) : List Byte → List (Fin 64 × Fin 32)
  | [] => []
  | b :: bs => rowPixels vx (wrapRow vy) b ++ spritePixels vx (vy + 1) bs

theorem Canvas.drawRow_eq (p : Canvas) (vx : Nat) (row : Fin 32) (b : Byte) :
    p.drawRow vx row b = p.toggleAll (rowPixels vx row b) := by
  rw [Canvas.drawRow, Canvas.toggleAll, rowPixels, List.foldl_map, List.foldl_filter]

theorem Canvas.drawRows_eq (p : Canvas) (vx vy : Nat) (bs : List Byte) :
    p.drawRows vx vy bs = p.toggleAll (spritePixels vx vy bs) := by
  induction bs generalizing p vy with
  | nil => rfl
  | cons b bs ih => rw [Canvas.drawRows, ih, Canvas.drawRow_eq, spritePixels, Canvas.toggleAll_append]

theorem mem_rowPixels {vx : Nat} {row : Fin 32} {b : Byte} {x : Fin 64 × Fin 32} :
    x ∈ rowPixels vx row b ↔ ∃ dx, dx < 8 ∧ spriteBit b dx = true ∧ x = (wrapCol (vx + dx), row) := by
  simp only [rowPixels, List.mem_map, List.mem_filter, List.mem_range, and_assoc, @eq_comm _ _ x]

theorem mem_spritePixels {vx vy : Nat} {bs : List Byte} {x : Fin 64 × Fin 32} :
    x ∈ spritePixels vx vy bs ↔ ∃ dx dy, ∃ h : dy < bs.length, dx < 8 ∧ spriteBit bs[dy] dx = true ∧
      x = (wrapCol (vx + dx), wrapRow (vy + dy)) := by
  induction bs generalizing vy with
  | nil => simp [spritePixels]
  | cons b bs ih =>
    rw [spritePixels, List.mem_append, mem_rowPixels, ih]
    constructor
    · rintro (⟨dx, h8, hb, rfl⟩ | ⟨dx, dy, h, h8, hb, rfl⟩)
      · exact ⟨dx, 0, by simp, h8, by simpa using hb, rfl⟩
      · exact ⟨dx, dy + 1, by simpa using h, h8, by simpa using hb, by rw [Nat.add_assoc, Nat.add_comm 1 dy]⟩
    · rintro ⟨dx, dy, h, h8, hb, rfl⟩
      cases dy with
      | zero => exact .inl ⟨dx, h8, by simpa using hb, rfl⟩
      | succ dy =>
        exact .inr ⟨dx, dy, by simpa using h, h8, by simpa using hb, by rw [Nat.add_assoc, Nat.add_comm 1 dy]⟩

theorem rowPixels_nodup (vx : Nat) (row : Fin 32) (b : Byte) : (rowPixels vx row b).Nodup := by
  refine List.Nodup.map_on ?_ (List.nodup_range.filter _)
  intro c hc d hd h
  simp only [List.mem_filter, List.mem_range] at hc hd
  have := congrArg (fun x => x.1.val) h
  simp only [wrapCol, Fin.ofNat] at this
  omega

/-- A sprite of at most 32 rows touches each pixel at most once: it is 8 wide on 64 columns (R106). -/
theorem spritePixels_nodup (vx vy : Nat) {bs : List Byte} (h : bs.length ≤ 32) : (spritePixels vx vy bs).Nodup := by
  induction bs generalizing vy with
  | nil => exact List.nodup_nil
  | cons b bs ih =>
    simp only [List.length_cons] at h
    refine List.Nodup.append (rowPixels_nodup _ _ _) (ih _ (by omega)) ?_
    intro x hx hy
    obtain ⟨dx, _, _, rfl⟩ := mem_rowPixels.1 hx
    obtain ⟨dx', dy, hdy, _, _, he⟩ := mem_spritePixels.1 hy
    have := congrArg (fun x => x.2.val) he
    simp only [wrapRow, Fin.ofNat] at this
    omega

/-- Everything a drawn sprite does to a pixel: it is toggled exactly where the sprite has a 1 bit. -/
theorem Framebuffer.draw_pixel (fb : Framebuffer) (vx vy : Nat) {bs : List Byte} (h : bs.length ≤ 32)
    (c : Fin 64) (r : Fin 32) : (fb.draw vx vy bs).fb.pixel c r =
      if (c, r) ∈ spritePixels vx vy bs then !fb.pixel c r else fb.pixel c r := by
  rw [Framebuffer.draw, Canvas.drawRows_eq, Canvas.toggleAll_pixel _ (spritePixels_nodup vx vy h)]

/-- The collision: some toggled pixel was set before. -/
theorem Framebuffer.draw_hit (fb : Framebuffer) (vx vy : Nat) {bs : List Byte} (h : bs.length ≤ 32) :
    (fb.draw vx vy bs).hit = (spritePixels vx vy bs).any fun x => fb.pixel x.1 x.2 := by
  rw [Framebuffer.draw, Canvas.drawRows_eq, Canvas.toggleAll_hit _ (spritePixels_nodup vx vy h), Bool.false_or]

end Sys2Proof.Machine
end

