-- ==== Sys2Proof/Laws/Memory.lean ====
section
/-! SUPPORT. The laws of memory: a read after a write, a write leaves other places alone, every operation keeps the
canonical form and FONT, and when a span of bytes can be read or written. -/

namespace Sys2Proof.Machine

variable {m : Memory} {a b lo : Nat} {v d : Byte} {vs : List Byte} {cs : List Host.Cell}

/-! ### Cell lists -/

theorem cellsWf_congr {m' : Memory} (h : m'.font = m.font) : cellsWf m' lo cs = cellsWf m lo cs := by
  induction cs generalizing lo with
  | nil => rfl
  | cons c cs ih => simp [cellsWf, ih, Memory.initial, h]

theorem cellsWf_cons {c : Nat} {w : Byte} : cellsWf m lo ((c, w) :: cs) = true ↔
    lo ≤ c ∧ c < Config.memSize ∧ w ≠ m.initial c ∧ cellsWf m (c + 1) cs = true := by
  simp [cellsWf, and_assoc]

theorem cellsWf_mono {lo' : Nat} (h : lo' ≤ lo) (hw : cellsWf m lo cs = true) : cellsWf m lo' cs = true := by
  cases cs with
  | nil => rfl
  | cons c cs =>
    rw [cellsWf_cons] at hw ⊢
    exact ⟨by omega, hw.2⟩

theorem lookupCell_below (h : cellsWf m lo cs = true) (ha : a < lo) : lookupCell a cs = none := by
  induction cs generalizing lo with
  | nil => rfl
  | cons c cs ih =>
    rw [cellsWf_cons] at h
    have hne : a ≠ c.1 := by omega
    simp only [lookupCell, hne, if_false]
    exact ih h.2.2.2 (by omega)

theorem lookupCell_put_same (h : cellsWf m lo cs = true) :
    lookupCell a (putCell d a v cs) = if v = d then none else some v := by
  induction cs generalizing lo with
  | nil => by_cases hv : v = d <;> simp [putCell, lookupCell, hv]
  | cons c cs ih =>
    rw [cellsWf_cons] at h
    have ih := ih h.2.2.2
    have below := lookupCell_below (a := a) h.2.2.2
    by_cases h1 : a < c.1
    · have hne : a ≠ c.1 := by omega
      by_cases hv : v = d <;> simp [putCell, lookupCell, h1, hv, hne, below (by omega)]
    · by_cases h2 : a = c.1
      · subst h2
        by_cases hv : v = d <;> simp [putCell, lookupCell, hv, below (by omega)]
      · simpa [putCell, lookupCell, h1, h2] using ih

theorem lookupCell_put_other (h : b ≠ a) : lookupCell b (putCell d a v cs) = lookupCell b cs := by
  induction cs with
  | nil => by_cases hv : v = d <;> simp [putCell, lookupCell, hv, h]
  | cons c cs ih =>
    simp only [putCell]
    split
    · split <;> simp [lookupCell, h]
    · split
      · rename_i h2
        have : b ≠ c.1 := h2 ▸ h
        split <;> simp [lookupCell, h, this]
      · simp [lookupCell, ih]

theorem cellsWf_put (h : cellsWf m lo cs = true) (hlo : lo ≤ a) (ha : a < Config.memSize) :
    cellsWf m lo (putCell (m.initial a) a v cs) = true := by
  induction cs generalizing lo with
  | nil => by_cases hv : v = m.initial a <;> simp [putCell, cellsWf, hv, hlo, ha]
  | cons c cs ih =>
    have hc := cellsWf_cons.1 h
    simp only [putCell]
    split
    · split
      · exact h
      · rename_i h1 hv
        exact cellsWf_cons.2 ⟨hlo, ha, hv, cellsWf_cons.2 ⟨h1, hc.2⟩⟩
    · split
      · rename_i h2
        split
        · exact cellsWf_mono (by omega) hc.2.2.2
        · rename_i hv
          exact cellsWf_cons.2 ⟨hlo, ha, hv, h2 ▸ hc.2.2.2⟩
      · exact cellsWf_cons.2 ⟨hc.1, hc.2.1, hc.2.2.1, ih hc.2.2.2 (by omega)⟩

/-! ### One byte -/

@[simp] theorem Memory.setByte_font : (m.setByte a v).font = m.font := rfl

theorem Memory.setByte_cells : (m.setByte a v).cells = putCell (m.initial a) a v m.cells := rfl

@[simp] theorem Memory.setByte_initial : (m.setByte a v).initial b = m.initial b := rfl

theorem Memory.byte_setByte_same (h : m.wf = true) : (m.setByte a v).byte a = v := by
  by_cases hv : v = m.initial a <;>
    simp [Memory.byte, Memory.setByte_cells, lookupCell_put_same h, hv]

theorem Memory.byte_setByte_other (h : b ≠ a) : (m.setByte a v).byte b = m.byte b := by
  simp [Memory.byte, Memory.setByte_cells, lookupCell_put_other h]

theorem Memory.setByte_wf (h : m.wf = true) (ha : a < Config.memSize) : (m.setByte a v).wf = true := by
  rw [Memory.wf, cellsWf_congr (m := m) (m' := m.setByte a v) rfl]
  exact cellsWf_put h (Nat.zero_le a) ha

/-! ### Consecutive bytes -/

@[simp] theorem Memory.setBytes_font : (m.setBytes a vs).font = m.font := by
  induction vs generalizing m a with
  | nil => rfl
  | cons v vs ih => simp [Memory.setBytes, ih]

theorem Memory.setBytes_wf (h : m.wf = true) (ha : a + vs.length ≤ Config.memSize) :
    (m.setBytes a vs).wf = true := by
  induction vs generalizing m a with
  | nil => exact h
  | cons v vs ih =>
    simp only [List.length_cons] at ha
    exact ih (Memory.setByte_wf h (by omega)) (by omega)

theorem Memory.byte_setBytes_outside (h : ¬ (a ≤ b ∧ b < a + vs.length)) :
    (m.setBytes a vs).byte b = m.byte b := by
  induction vs generalizing m a with
  | nil => rfl
  | cons v vs ih =>
    simp only [List.length_cons] at h
    rw [Memory.setBytes, ih (by omega), Memory.byte_setByte_other (by omega)]

theorem Memory.byte_setBytes_inside (h : m.wf = true) (hs : a + vs.length ≤ Config.memSize) {k : Nat}
    (hk : k < vs.length) : (m.setBytes a vs).byte (a + k) = vs[k] := by
  induction vs generalizing m a k with
  | nil => simp at hk
  | cons v vs ih =>
    simp only [List.length_cons] at hs hk
    have hw : (m.setByte a v).wf = true := Memory.setByte_wf h (by omega)
    cases k with
    | zero => rw [Memory.setBytes, Memory.byte_setBytes_outside (by omega)]; exact Memory.byte_setByte_same h
    | succ k =>
      have := ih (m := m.setByte a v) (a := a + 1) (k := k) hw (by omega) (by omega)
      simpa [Memory.setBytes, Nat.add_assoc, Nat.add_comm 1 k] using this

/-! ### Bounds -/

theorem spanFits_iff {n : Nat} : spanFits a n = true ↔ n = 0 ∨ a + n ≤ 0x1000 := by
  rw [spanFits, Bool.or_eq_true, beq_iff_eq, decide_eq_true_iff, Config.memSize]
  omega

theorem Memory.read_eq (h : a < 0x1000) : m.read a = some (m.byte a) := by
  simp [Memory.read, Config.memSize, h]

theorem Memory.read_none (h : 0x1000 ≤ a) : m.read a = none := by
  simp [Memory.read, Config.memSize, Nat.not_lt.2 h]

/-- Everything a read of `n` bytes can answer. -/
theorem Memory.readBytes_cases (m : Memory) (a n : Nat) :
    ((n = 0 ∨ a + n ≤ 0x1000) ∧ m.readBytes a n = some ((List.range n).map fun k => m.byte (a + k))) ∨
    (0 < n ∧ 0x1000 < a + n ∧ m.readBytes a n = none) := by
  by_cases h : spanFits a n = true
  · exact .inl ⟨spanFits_iff.1 h, by simp [Memory.readBytes, h]⟩
  · have h' : ¬ (n = 0 ∨ a + n ≤ 0x1000) := fun hc => h (spanFits_iff.2 hc)
    exact .inr ⟨by omega, by omega, by simp [Memory.readBytes, h]⟩

/-- Everything a write of bytes can answer. -/
theorem Memory.writeBytes_cases (m : Memory) (a : Nat) (vs : List Byte) :
    ((vs.length = 0 ∨ a + vs.length ≤ 0x1000) ∧ m.writeBytes a vs = some (m.setBytes a vs)) ∨
    (0 < vs.length ∧ 0x1000 < a + vs.length ∧ m.writeBytes a vs = none) := by
  by_cases h : spanFits a vs.length = true
  · exact .inl ⟨spanFits_iff.1 h, by simp [Memory.writeBytes, h]⟩
  · have h' : ¬ (vs.length = 0 ∨ a + vs.length ≤ 0x1000) := fun hc => h (spanFits_iff.2 hc)
    exact .inr ⟨by omega, by omega, by simp [Memory.writeBytes, h]⟩

theorem Memory.writeBytes_wf {m' : Memory} (h : m.wf = true) (hw : m.writeBytes a vs = some m') : m'.wf = true := by
  rcases m.writeBytes_cases a vs with ⟨hs, he⟩ | ⟨_, _, he⟩
  · rw [he] at hw
    cases hw
    rcases hs with h0 | hle
    · rw [List.length_eq_zero_iff.1 h0]; exact h
    · exact Memory.setBytes_wf h hle
  · rw [he] at hw; cases hw

theorem Memory.reset_wf (font : Font) : (Memory.reset font).wf = true := rfl

theorem Memory.reset_byte (font : Font) : (Memory.reset font).byte a = (Memory.reset font).initial a := rfl

end Sys2Proof.Machine
end

