-- ==== Sys2Proof/Laws/State.lean ====
section
/-! SUPPORT. One lemma per field per update of the state, so that no proof unfolds a record update; and how a register
reads after a register is written. -/

namespace Sys2Proof.Machine

/-! ### setReg -/

@[simp] theorem State.setReg_v (s : State) (r : Reg) (b : Byte) : (s.setReg r b).v = s.v.set r b := rfl
@[simp] theorem State.setReg_pc (s : State) (r : Reg) (b : Byte) : (s.setReg r b).pc = s.pc := rfl
@[simp] theorem State.setReg_i (s : State) (r : Reg) (b : Byte) : (s.setReg r b).i = s.i := rfl
@[simp] theorem State.setReg_dt (s : State) (r : Reg) (b : Byte) : (s.setReg r b).dt = s.dt := rfl
@[simp] theorem State.setReg_st (s : State) (r : Reg) (b : Byte) : (s.setReg r b).st = s.st := rfl
@[simp] theorem State.setReg_stack (s : State) (r : Reg) (b : Byte) : (s.setReg r b).stack = s.stack := rfl
@[simp] theorem State.setReg_depth (s : State) (r : Reg) (b : Byte) : (s.setReg r b).depth = s.depth := rfl
@[simp] theorem State.setReg_mem (s : State) (r : Reg) (b : Byte) : (s.setReg r b).mem = s.mem := rfl
@[simp] theorem State.setReg_fb (s : State) (r : Reg) (b : Byte) : (s.setReg r b).fb = s.fb := rfl
@[simp] theorem State.setReg_fault (s : State) (r : Reg) (b : Byte) : (s.setReg r b).fault = s.fault := rfl
@[simp] theorem State.setReg_started (s : State) (r : Reg) (b : Byte) : (s.setReg r b).started = s.started := rfl
@[simp] theorem State.setReg_out (s : State) (r : Reg) (b : Byte) : (s.setReg r b).out = s.out := rfl
@[simp] theorem State.setReg_host (s : State) (r : Reg) (b : Byte) : (s.setReg r b).host = s.host := rfl
@[simp] theorem State.setReg_draws (s : State) (r : Reg) (b : Byte) : (s.setReg r b).draws = s.draws := rfl

/-! ### setPc -/

@[simp] theorem State.setPc_v (s : State) (w : Word) : (s.setPc w).v = s.v := rfl
@[simp] theorem State.setPc_pc (s : State) (w : Word) : (s.setPc w).pc = w := rfl
@[simp] theorem State.setPc_i (s : State) (w : Word) : (s.setPc w).i = s.i := rfl
@[simp] theorem State.setPc_dt (s : State) (w : Word) : (s.setPc w).dt = s.dt := rfl
@[simp] theorem State.setPc_st (s : State) (w : Word) : (s.setPc w).st = s.st := rfl
@[simp] theorem State.setPc_stack (s : State) (w : Word) : (s.setPc w).stack = s.stack := rfl
@[simp] theorem State.setPc_depth (s : State) (w : Word) : (s.setPc w).depth = s.depth := rfl
@[simp] theorem State.setPc_mem (s : State) (w : Word) : (s.setPc w).mem = s.mem := rfl
@[simp] theorem State.setPc_fb (s : State) (w : Word) : (s.setPc w).fb = s.fb := rfl
@[simp] theorem State.setPc_fault (s : State) (w : Word) : (s.setPc w).fault = s.fault := rfl
@[simp] theorem State.setPc_started (s : State) (w : Word) : (s.setPc w).started = s.started := rfl
@[simp] theorem State.setPc_out (s : State) (w : Word) : (s.setPc w).out = s.out := rfl
@[simp] theorem State.setPc_host (s : State) (w : Word) : (s.setPc w).host = s.host := rfl
@[simp] theorem State.setPc_draws (s : State) (w : Word) : (s.setPc w).draws = s.draws := rfl

/-! ### setI -/

@[simp] theorem State.setI_v (s : State) (w : Word) : (s.setI w).v = s.v := rfl
@[simp] theorem State.setI_pc (s : State) (w : Word) : (s.setI w).pc = s.pc := rfl
@[simp] theorem State.setI_i (s : State) (w : Word) : (s.setI w).i = w := rfl
@[simp] theorem State.setI_dt (s : State) (w : Word) : (s.setI w).dt = s.dt := rfl
@[simp] theorem State.setI_st (s : State) (w : Word) : (s.setI w).st = s.st := rfl
@[simp] theorem State.setI_stack (s : State) (w : Word) : (s.setI w).stack = s.stack := rfl
@[simp] theorem State.setI_depth (s : State) (w : Word) : (s.setI w).depth = s.depth := rfl
@[simp] theorem State.setI_mem (s : State) (w : Word) : (s.setI w).mem = s.mem := rfl
@[simp] theorem State.setI_fb (s : State) (w : Word) : (s.setI w).fb = s.fb := rfl
@[simp] theorem State.setI_fault (s : State) (w : Word) : (s.setI w).fault = s.fault := rfl
@[simp] theorem State.setI_started (s : State) (w : Word) : (s.setI w).started = s.started := rfl
@[simp] theorem State.setI_out (s : State) (w : Word) : (s.setI w).out = s.out := rfl
@[simp] theorem State.setI_host (s : State) (w : Word) : (s.setI w).host = s.host := rfl
@[simp] theorem State.setI_draws (s : State) (w : Word) : (s.setI w).draws = s.draws := rfl

/-! ### setDt -/

@[simp] theorem State.setDt_v (s : State) (b : Byte) : (s.setDt b).v = s.v := rfl
@[simp] theorem State.setDt_pc (s : State) (b : Byte) : (s.setDt b).pc = s.pc := rfl
@[simp] theorem State.setDt_i (s : State) (b : Byte) : (s.setDt b).i = s.i := rfl
@[simp] theorem State.setDt_dt (s : State) (b : Byte) : (s.setDt b).dt = b := rfl
@[simp] theorem State.setDt_st (s : State) (b : Byte) : (s.setDt b).st = s.st := rfl
@[simp] theorem State.setDt_stack (s : State) (b : Byte) : (s.setDt b).stack = s.stack := rfl
@[simp] theorem State.setDt_depth (s : State) (b : Byte) : (s.setDt b).depth = s.depth := rfl
@[simp] theorem State.setDt_mem (s : State) (b : Byte) : (s.setDt b).mem = s.mem := rfl
@[simp] theorem State.setDt_fb (s : State) (b : Byte) : (s.setDt b).fb = s.fb := rfl
@[simp] theorem State.setDt_fault (s : State) (b : Byte) : (s.setDt b).fault = s.fault := rfl
@[simp] theorem State.setDt_started (s : State) (b : Byte) : (s.setDt b).started = s.started := rfl
@[simp] theorem State.setDt_out (s : State) (b : Byte) : (s.setDt b).out = s.out := rfl
@[simp] theorem State.setDt_host (s : State) (b : Byte) : (s.setDt b).host = s.host := rfl
@[simp] theorem State.setDt_draws (s : State) (b : Byte) : (s.setDt b).draws = s.draws := rfl

/-! ### setSt -/

@[simp] theorem State.setSt_v (s : State) (b : Byte) : (s.setSt b).v = s.v := rfl
@[simp] theorem State.setSt_pc (s : State) (b : Byte) : (s.setSt b).pc = s.pc := rfl
@[simp] theorem State.setSt_i (s : State) (b : Byte) : (s.setSt b).i = s.i := rfl
@[simp] theorem State.setSt_dt (s : State) (b : Byte) : (s.setSt b).dt = s.dt := rfl
@[simp] theorem State.setSt_st (s : State) (b : Byte) : (s.setSt b).st = b := rfl
@[simp] theorem State.setSt_stack (s : State) (b : Byte) : (s.setSt b).stack = s.stack := rfl
@[simp] theorem State.setSt_depth (s : State) (b : Byte) : (s.setSt b).depth = s.depth := rfl
@[simp] theorem State.setSt_mem (s : State) (b : Byte) : (s.setSt b).mem = s.mem := rfl
@[simp] theorem State.setSt_fb (s : State) (b : Byte) : (s.setSt b).fb = s.fb := rfl
@[simp] theorem State.setSt_fault (s : State) (b : Byte) : (s.setSt b).fault = s.fault := rfl
@[simp] theorem State.setSt_started (s : State) (b : Byte) : (s.setSt b).started = s.started := rfl
@[simp] theorem State.setSt_out (s : State) (b : Byte) : (s.setSt b).out = s.out := rfl
@[simp] theorem State.setSt_host (s : State) (b : Byte) : (s.setSt b).host = s.host := rfl
@[simp] theorem State.setSt_draws (s : State) (b : Byte) : (s.setSt b).draws = s.draws := rfl

/-! ### setMem -/

@[simp] theorem State.setMem_v (s : State) (m : Memory) : (s.setMem m).v = s.v := rfl
@[simp] theorem State.setMem_pc (s : State) (m : Memory) : (s.setMem m).pc = s.pc := rfl
@[simp] theorem State.setMem_i (s : State) (m : Memory) : (s.setMem m).i = s.i := rfl
@[simp] theorem State.setMem_dt (s : State) (m : Memory) : (s.setMem m).dt = s.dt := rfl
@[simp] theorem State.setMem_st (s : State) (m : Memory) : (s.setMem m).st = s.st := rfl
@[simp] theorem State.setMem_stack (s : State) (m : Memory) : (s.setMem m).stack = s.stack := rfl
@[simp] theorem State.setMem_depth (s : State) (m : Memory) : (s.setMem m).depth = s.depth := rfl
@[simp] theorem State.setMem_mem (s : State) (m : Memory) : (s.setMem m).mem = m := rfl
@[simp] theorem State.setMem_fb (s : State) (m : Memory) : (s.setMem m).fb = s.fb := rfl
@[simp] theorem State.setMem_fault (s : State) (m : Memory) : (s.setMem m).fault = s.fault := rfl
@[simp] theorem State.setMem_started (s : State) (m : Memory) : (s.setMem m).started = s.started := rfl
@[simp] theorem State.setMem_out (s : State) (m : Memory) : (s.setMem m).out = s.out := rfl
@[simp] theorem State.setMem_host (s : State) (m : Memory) : (s.setMem m).host = s.host := rfl
@[simp] theorem State.setMem_draws (s : State) (m : Memory) : (s.setMem m).draws = s.draws := rfl

/-! ### setFb -/

@[simp] theorem State.setFb_v (s : State) (fb : Framebuffer) : (s.setFb fb).v = s.v := rfl
@[simp] theorem State.setFb_pc (s : State) (fb : Framebuffer) : (s.setFb fb).pc = s.pc := rfl
@[simp] theorem State.setFb_i (s : State) (fb : Framebuffer) : (s.setFb fb).i = s.i := rfl
@[simp] theorem State.setFb_dt (s : State) (fb : Framebuffer) : (s.setFb fb).dt = s.dt := rfl
@[simp] theorem State.setFb_st (s : State) (fb : Framebuffer) : (s.setFb fb).st = s.st := rfl
@[simp] theorem State.setFb_stack (s : State) (fb : Framebuffer) : (s.setFb fb).stack = s.stack := rfl
@[simp] theorem State.setFb_depth (s : State) (fb : Framebuffer) : (s.setFb fb).depth = s.depth := rfl
@[simp] theorem State.setFb_mem (s : State) (fb : Framebuffer) : (s.setFb fb).mem = s.mem := rfl
@[simp] theorem State.setFb_fb (s : State) (fb : Framebuffer) : (s.setFb fb).fb = fb := rfl
@[simp] theorem State.setFb_fault (s : State) (fb : Framebuffer) : (s.setFb fb).fault = s.fault := rfl
@[simp] theorem State.setFb_started (s : State) (fb : Framebuffer) : (s.setFb fb).started = s.started := rfl
@[simp] theorem State.setFb_out (s : State) (fb : Framebuffer) : (s.setFb fb).out = s.out := rfl
@[simp] theorem State.setFb_host (s : State) (fb : Framebuffer) : (s.setFb fb).host = s.host := rfl
@[simp] theorem State.setFb_draws (s : State) (fb : Framebuffer) : (s.setFb fb).draws = s.draws := rfl

/-! ### setOut -/

@[simp] theorem State.setOut_v (s : State) (o : Outputs) : (s.setOut o).v = s.v := rfl
@[simp] theorem State.setOut_pc (s : State) (o : Outputs) : (s.setOut o).pc = s.pc := rfl
@[simp] theorem State.setOut_i (s : State) (o : Outputs) : (s.setOut o).i = s.i := rfl
@[simp] theorem State.setOut_dt (s : State) (o : Outputs) : (s.setOut o).dt = s.dt := rfl
@[simp] theorem State.setOut_st (s : State) (o : Outputs) : (s.setOut o).st = s.st := rfl
@[simp] theorem State.setOut_stack (s : State) (o : Outputs) : (s.setOut o).stack = s.stack := rfl
@[simp] theorem State.setOut_depth (s : State) (o : Outputs) : (s.setOut o).depth = s.depth := rfl
@[simp] theorem State.setOut_mem (s : State) (o : Outputs) : (s.setOut o).mem = s.mem := rfl
@[simp] theorem State.setOut_fb (s : State) (o : Outputs) : (s.setOut o).fb = s.fb := rfl
@[simp] theorem State.setOut_fault (s : State) (o : Outputs) : (s.setOut o).fault = s.fault := rfl
@[simp] theorem State.setOut_started (s : State) (o : Outputs) : (s.setOut o).started = s.started := rfl
@[simp] theorem State.setOut_out (s : State) (o : Outputs) : (s.setOut o).out = o := rfl
@[simp] theorem State.setOut_host (s : State) (o : Outputs) : (s.setOut o).host = s.host := rfl
@[simp] theorem State.setOut_draws (s : State) (o : Outputs) : (s.setOut o).draws = s.draws := rfl

/-! ### raise -/

@[simp] theorem State.raise_v (s : State) (f : Fault) : (s.raise f).v = s.v := rfl
@[simp] theorem State.raise_pc (s : State) (f : Fault) : (s.raise f).pc = s.pc := rfl
@[simp] theorem State.raise_i (s : State) (f : Fault) : (s.raise f).i = s.i := rfl
@[simp] theorem State.raise_dt (s : State) (f : Fault) : (s.raise f).dt = s.dt := rfl
@[simp] theorem State.raise_st (s : State) (f : Fault) : (s.raise f).st = s.st := rfl
@[simp] theorem State.raise_stack (s : State) (f : Fault) : (s.raise f).stack = s.stack := rfl
@[simp] theorem State.raise_depth (s : State) (f : Fault) : (s.raise f).depth = s.depth := rfl
@[simp] theorem State.raise_mem (s : State) (f : Fault) : (s.raise f).mem = s.mem := rfl
@[simp] theorem State.raise_fb (s : State) (f : Fault) : (s.raise f).fb = s.fb := rfl
@[simp] theorem State.raise_fault (s : State) (f : Fault) : (s.raise f).fault = some { cause := f, pc := s.pc } := rfl
@[simp] theorem State.raise_started (s : State) (f : Fault) : (s.raise f).started = s.started := rfl
@[simp] theorem State.raise_out (s : State) (f : Fault) : (s.raise f).out = s.out := rfl
@[simp] theorem State.raise_host (s : State) (f : Fault) : (s.raise f).host = s.host := rfl
@[simp] theorem State.raise_draws (s : State) (f : Fault) : (s.raise f).draws = s.draws := rfl

/-! ### consume -/

@[simp] theorem State.consume_v (s : State) : (s.consume).v = s.v := rfl
@[simp] theorem State.consume_pc (s : State) : (s.consume).pc = s.pc := rfl
@[simp] theorem State.consume_i (s : State) : (s.consume).i = s.i := rfl
@[simp] theorem State.consume_dt (s : State) : (s.consume).dt = s.dt := rfl
@[simp] theorem State.consume_st (s : State) : (s.consume).st = s.st := rfl
@[simp] theorem State.consume_stack (s : State) : (s.consume).stack = s.stack := rfl
@[simp] theorem State.consume_depth (s : State) : (s.consume).depth = s.depth := rfl
@[simp] theorem State.consume_mem (s : State) : (s.consume).mem = s.mem := rfl
@[simp] theorem State.consume_fb (s : State) : (s.consume).fb = s.fb := rfl
@[simp] theorem State.consume_fault (s : State) : (s.consume).fault = s.fault := rfl
@[simp] theorem State.consume_started (s : State) : (s.consume).started = s.started := rfl
@[simp] theorem State.consume_out (s : State) : (s.consume).out = s.out := rfl
@[simp] theorem State.consume_host (s : State) : (s.consume).host = s.host.tail := rfl
@[simp] theorem State.consume_draws (s : State) : (s.consume).draws = s.draws + 1 := rfl

/-! ### beginStep -/

@[simp] theorem State.beginStep_v (s : State) : (s.beginStep).v = s.v := rfl
@[simp] theorem State.beginStep_pc (s : State) : (s.beginStep).pc = s.pc := rfl
@[simp] theorem State.beginStep_i (s : State) : (s.beginStep).i = s.i := rfl
@[simp] theorem State.beginStep_dt (s : State) : (s.beginStep).dt = s.dt := rfl
@[simp] theorem State.beginStep_st (s : State) : (s.beginStep).st = s.st := rfl
@[simp] theorem State.beginStep_stack (s : State) : (s.beginStep).stack = s.stack := rfl
@[simp] theorem State.beginStep_depth (s : State) : (s.beginStep).depth = s.depth := rfl
@[simp] theorem State.beginStep_mem (s : State) : (s.beginStep).mem = s.mem := rfl
@[simp] theorem State.beginStep_fb (s : State) : (s.beginStep).fb = s.fb := rfl
@[simp] theorem State.beginStep_fault (s : State) : (s.beginStep).fault = s.fault := rfl
@[simp] theorem State.beginStep_started (s : State) : (s.beginStep).started = true := rfl
@[simp] theorem State.beginStep_out (s : State) : (s.beginStep).out = Outputs.quiet := rfl
@[simp] theorem State.beginStep_host (s : State) : (s.beginStep).host = s.host := rfl
@[simp] theorem State.beginStep_draws (s : State) : (s.beginStep).draws = s.draws := rfl

/-! ### advance, skipIf, setFlagAndReg, unrecognized are setPc, setReg and setOut -/

@[simp] theorem State.advance_eq (s : State) : s.advance = s.setPc (s.pc + 2#16) := rfl

@[simp] theorem State.unrecognized_eq (s : State) (op : Word) :
    s.unrecognized op = (s.setOut (Outputs.report op)).setPc (s.pc + 2#16) := rfl

theorem State.skipIf_eq (s : State) (c : Bool) :
    s.skipIf c = s.setPc (s.pc + (if c then 4#16 else 2#16)) := by
  cases c
  · rfl
  · simp [State.skipIf, State.nextPc, BitVec.add_assoc]

@[simp] theorem State.setFlagAndReg_eq (s : State) (c : Bool) (x : Reg) (b : Byte) :
    s.setFlagAndReg c x b = (s.setReg flagReg (flagByte c)).setReg x b := rfl

@[simp] theorem State.showSprite_eq (s : State) (p : Canvas) :
    s.showSprite p = (s.setFb p.fb).setReg flagReg (flagByte p.hit) := rfl

/-! ### reg -/

@[simp] theorem State.setPc_reg (s : State) (w : Word) (q : Reg) : (s.setPc w).reg q = s.reg q := rfl
@[simp] theorem State.setI_reg (s : State) (w : Word) (q : Reg) : (s.setI w).reg q = s.reg q := rfl
@[simp] theorem State.setDt_reg (s : State) (b : Byte) (q : Reg) : (s.setDt b).reg q = s.reg q := rfl
@[simp] theorem State.setSt_reg (s : State) (b : Byte) (q : Reg) : (s.setSt b).reg q = s.reg q := rfl
@[simp] theorem State.setMem_reg (s : State) (m : Memory) (q : Reg) : (s.setMem m).reg q = s.reg q := rfl
@[simp] theorem State.setFb_reg (s : State) (fb : Framebuffer) (q : Reg) : (s.setFb fb).reg q = s.reg q := rfl
@[simp] theorem State.setOut_reg (s : State) (o : Outputs) (q : Reg) : (s.setOut o).reg q = s.reg q := rfl
@[simp] theorem State.raise_reg (s : State) (f : Fault) (q : Reg) : (s.raise f).reg q = s.reg q := rfl
@[simp] theorem State.consume_reg (s : State) (q : Reg) : (s.consume).reg q = s.reg q := rfl
@[simp] theorem State.beginStep_reg (s : State) (q : Reg) : (s.beginStep).reg q = s.reg q := rfl

@[simp] theorem State.setReg_reg (s : State) (r : Reg) (b : Byte) (q : Reg) :
    (s.setReg r b).reg q = if q = r then b else s.reg q := by
  simp only [State.reg, State.setReg, Fin.getElem_fin, Vector.getElem_set, Fin.ext_iff, eq_comm]

theorem State.setReg_reg_same (s : State) (r : Reg) (b : Byte) : (s.setReg r b).reg r = b := by simp

theorem State.setReg_reg_other (s : State) {r q : Reg} (b : Byte) (h : q ≠ r) : (s.setReg r b).reg q = s.reg q := by
  simp [h]

/-- Two states that agree on every field are equal: the way to show that an instruction changed nothing else. -/
theorem State.ext_fields {s t : State} (hv : ∀ r : Reg, t.reg r = s.reg r) (hpc : t.pc = s.pc) (hi : t.i = s.i)
    (hdt : t.dt = s.dt) (hst : t.st = s.st) (hk : t.stack = s.stack) (hd : t.depth = s.depth) (hm : t.mem = s.mem)
    (hfb : t.fb = s.fb) (hf : t.fault = s.fault) (hs : t.started = s.started) (ho : t.out = s.out)
    (hh : t.host = s.host) (hn : t.draws = s.draws) : t = s := by
  have hv' : t.v = s.v := Vector.ext fun k hk => hv ⟨k, hk⟩
  cases s
  cases t
  simp_all

end Sys2Proof.Machine
end

