-- ==== Sys2Proof/Laws/Ops.lean ====
section
/-! SUPPORT. For each shared operation, one lemma that says everything it can do: the stack, memory through I, the register
ranges, fault entry, the fetch, the step. -/

namespace Sys2Proof.Machine

variable {s t : State}

/-! ### Fault entry and mapped results -/

@[simp] theorem State.commit_ok (s t : State) : s.commit (.ok t) = .next t := rfl

@[simp] theorem State.commit_error (s : State) (f : Fault) : s.commit (.error f) = .next (s.raise f) := rfl

@[simp] theorem mapNext_next (f : State → State) (t : State) : mapNext f (.next t) = .next (f t) := rfl

theorem State.commit_next (s : State) (r : Except Fault State) : ∃ t, s.commit r = .next t := by
  cases r <;> exact ⟨_, rfl⟩

/-! ### The stack -/

/-- Everything CALL's push can do (R81). -/
theorem State.push_cases (s : State) (w : Word) :
    (∃ h : s.depth.val < 16, s.push w =
      .ok { s with stack := s.stack.set s.depth.val w, depth := ⟨s.depth.val + 1, by omega⟩ }) ∨
    (s.depth.val = 16 ∧ s.push w = .error .stackOverflow) := by
  by_cases h : s.depth.val < 16
  · exact .inl ⟨h, by simp [State.push, h]⟩
  · have := s.depth.isLt
    exact .inr ⟨by omega, by simp [State.push, h]⟩

/-- Everything RET's pop can do (R82). -/
theorem State.pop_cases (s : State) :
    (∃ h : 0 < s.depth.val, s.pop =
      .ok (s.stack[s.depth.val - 1]'(by have := s.depth.isLt; omega),
        { s with depth := ⟨s.depth.val - 1, by have := s.depth.isLt; omega⟩ })) ∨
    (s.depth.val = 0 ∧ s.pop = .error .stackUnderflow) := by
  by_cases h : 0 < s.depth.val
  · exact .inl ⟨h, by simp [State.pop, h]⟩
  · exact .inr ⟨by omega, by simp [State.pop, h]⟩

/-! ### Memory through I -/

/-- Everything a read through I can do (R43, R48). -/
theorem State.readAtI_cases (s : State) (n : Nat) :
    ((n = 0 ∨ s.i.toNat + n ≤ 0x1000) ∧
      s.readAtI n = .ok ((List.range n).map fun k => s.mem.byte (s.i.toNat + k))) ∨
    (0 < n ∧ 0x1000 < s.i.toNat + n ∧ s.readAtI n = .error .dataOutOfRange) := by
  rcases s.mem.readBytes_cases s.i.toNat n with ⟨h, e⟩ | ⟨h, h', e⟩
  · exact .inl ⟨h, by simp [State.readAtI, e]⟩
  · exact .inr ⟨h, h', by simp [State.readAtI, e]⟩

/-- Everything a write through I can do (R43, R48). -/
theorem State.writeAtI_cases (s : State) (bs : List Byte) :
    ((bs.length = 0 ∨ s.i.toNat + bs.length ≤ 0x1000) ∧
      s.writeAtI bs = .ok (s.setMem (s.mem.setBytes s.i.toNat bs))) ∨
    (0 < bs.length ∧ 0x1000 < s.i.toNat + bs.length ∧ s.writeAtI bs = .error .dataOutOfRange) := by
  rcases s.mem.writeBytes_cases s.i.toNat bs with ⟨h, e⟩ | ⟨h, h', e⟩
  · exact .inl ⟨h, by simp [State.writeAtI, e]⟩
  · exact .inr ⟨h, h', by simp [State.writeAtI, e]⟩

/-! ### Register ranges -/

@[simp] theorem State.regsUpTo_length (s : State) (x : Reg) : (s.regsUpTo x).length = x.val + 1 := by
  simp [State.regsUpTo]

theorem State.regsUpTo_getElem (s : State) (x : Reg) (k : Nat) (h : k < (s.regsUpTo x).length) :
    (s.regsUpTo x)[k] = s.reg (Fin.ofNat 16 k) := by
  simp [State.regsUpTo]

/-- A bulk load changes registers only. -/
theorem State.setRegs_eq (s : State) (k : Nat) (bs : List Byte) : s.setRegs k bs = { s with v := (s.setRegs k bs).v } := by
  induction bs generalizing s k with
  | nil => rfl
  | cons b bs ih => rw [State.setRegs, ih]; rfl

/-- Register `q` after a bulk load from register `k` upwards. -/
theorem State.setRegs_reg (s : State) (k : Nat) (bs : List Byte) (h : k + bs.length ≤ 16) (q : Reg) :
    (s.setRegs k bs).reg q =
      if hq : k ≤ q.val ∧ q.val < k + bs.length then bs[q.val - k]'(by omega) else s.reg q := by
  induction bs generalizing s k with
  | nil => simp only [State.setRegs, List.length_nil]; split <;> [omega; rfl]
  | cons b bs ih =>
    simp only [List.length_cons] at h
    rw [State.setRegs, ih _ _ (by omega), State.setReg_reg]
    have hv : (Fin.ofNat 16 k).val = k := by simp [Fin.ofNat]; omega
    by_cases hk : q = Fin.ofNat 16 k
    · have hqk : q.val = k := by rw [hk, hv]
      rw [dif_neg (by omega), dif_pos (by simp only [List.length_cons]; omega), if_pos hk]
      simp [hqk]
    · have hne : q.val ≠ k := fun e => hk (Fin.ext (by rw [e, hv]))
      simp only [List.length_cons]
      by_cases hq : k + 1 ≤ q.val ∧ q.val < k + 1 + bs.length
      · rw [dif_pos hq, dif_pos (by omega)]
        have : q.val - k = (q.val - (k + 1)) + 1 := by omega
        simp [this]
      · rw [dif_neg hq, dif_neg (by omega), if_neg hk]

/-! ### The fetch (R44) -/

/-- Everything a fetch can do. -/
theorem State.fetch_cases (s : State) :
    (s.pc.toNat < 0xFFF ∧ s.fetch = .ok (opOfBytes (s.mem.byte s.pc.toNat) (s.mem.byte (s.pc.toNat + 1)))) ∨
    (0xFFF ≤ s.pc.toNat ∧ s.fetch = .error .fetchOutOfRange) := by
  rcases s.mem.readBytes_cases s.pc.toNat 2 with ⟨h, e⟩ | ⟨h, h', e⟩
  · exact .inl ⟨by omega, by simp [State.fetch, e, List.range_succ]⟩
  · exact .inr ⟨by omega, by simp [State.fetch, e]⟩

@[simp] theorem State.beginStep_fetch (s : State) : s.beginStep.fetch = s.fetch := rfl

@[simp] theorem State.beginStep_key (s : State) : s.beginStep.key = s.key := rfl

@[simp] theorem State.beginStep_rnd (s : State) : s.beginStep.rnd = s.rnd := rfl

/-! ### The step -/

/-- Everything a Step event can do: frozen; a fetch fault; an instruction; an unrecognized word. -/
theorem State.stepEvent_cases (s : State) :
    (s.fault.isSome = true ∧ s.stepEvent = .next (s.setOut Outputs.quiet).consume) ∨
    (s.fault = none ∧ s.fetch = .error .fetchOutOfRange ∧
      s.stepEvent = .next (s.beginStep.raise .fetchOutOfRange).consume) ∨
    (∃ op i, s.fault = none ∧ s.fetch = .ok op ∧ decode op = .ok i ∧
      s.stepEvent = mapNext State.consume (exec i s.beginStep)) ∨
    (∃ op e, s.fault = none ∧ s.fetch = .ok op ∧ decode op = .error e ∧
      s.stepEvent = .next (s.beginStep.unrecognized op).consume) := by
  cases hf : s.fault with
  | some f => exact .inl ⟨rfl, by simp [State.stepEvent, hf]⟩
  | none =>
    have hs : s.stepEvent = mapNext State.consume s.beginStep.fetchAndExec := by simp [State.stepEvent, hf]
    rcases s.fetch_cases with ⟨_, e⟩ | ⟨_, e⟩
    · cases hd : decode (opOfBytes (s.mem.byte s.pc.toNat) (s.mem.byte (s.pc.toNat + 1))) with
      | ok i =>
        exact .inr (.inr (.inl ⟨_, i, rfl, e, hd, by
          rw [hs, State.fetchAndExec, State.beginStep_fetch, e]; simp only [State.execWord, hd]⟩))
      | error r =>
        exact .inr (.inr (.inr ⟨_, r, rfl, e, hd, by
          rw [hs, State.fetchAndExec, State.beginStep_fetch, e]; simp only [State.execWord, hd, mapNext_next]⟩))
    · exact .inr (.inl ⟨rfl, e, by
        rw [hs, State.fetchAndExec, State.beginStep_fetch, e, mapNext_next]⟩)

/-- Everything a step can do: the host's next event. -/
theorem step_cases (s : State) :
    (s.stepIsNext = true ∧ step s = s.stepEvent) ∨
    (∃ es, s.host = .reset :: es ∧ step s = .next { s with host := es }.resetEvent) ∨
    (∃ image es, s.host = .load image :: es ∧ step s = .next ({ s with host := es }.loadEvent image)) ∨
    (∃ es, s.host = .tick :: es ∧ step s = .next { s with host := es }.tickEvent) := by
  cases h : s.host with
  | nil => exact .inl ⟨by simp [State.stepIsNext, h], by simp [step, State.runEvent, h]⟩
  | cons e es =>
    cases e with
    | reset => exact .inr (.inl ⟨es, rfl, by simp [step, State.runEvent, h]⟩)
    | load image => exact .inr (.inr (.inl ⟨image, es, rfl, by simp [step, State.runEvent, h]⟩))
    | tick => exact .inr (.inr (.inr ⟨es, rfl, by simp [step, State.runEvent, h]⟩))
    | step k r => exact .inl ⟨by simp [State.stepIsNext, h], by simp [step, State.runEvent, h]⟩

/-! ### Numbers -/

theorem zextAddr_toNat (nnn : Addr12) : (zextAddr nnn).toNat = nnn.toNat := by
  have := nnn.isLt
  simp [zextAddr]
  omega

theorem zextByte_toNat (b : Byte) : (zextByte b).toNat = b.toNat := by
  have := b.isLt
  simp [zextByte]
  omega

theorem store8_toNat (n : Nat) : (store8 n).toNat = n % 256 := by simp [store8]

theorem sumByte_toNat (a b : Byte) : (sumByte a b).toNat = (a.toNat + b.toNat) % 256 := store8_toNat _

theorem differenceByte_toNat (a b : Byte) : (differenceByte a b).toNat = (a.toNat + 256 - b.toNat) % 256 :=
  store8_toNat _

theorem halfByte_toNat (a : Byte) : (halfByte a).toNat = a.toNat / 2 := by
  have := a.isLt
  rw [halfByte, store8_toNat]
  omega

theorem doubleByte_toNat (a : Byte) : (doubleByte a).toNat = a.toNat * 2 % 256 := store8_toNat _

theorem flagByte_toNat (c : Bool) : (flagByte c).toNat = if c then 1 else 0 := by cases c <;> rfl

theorem glyphAddr_toNat (b : Byte) : (glyphAddr b).toNat = b.toNat * 5 := by
  have := b.isLt
  simp [glyphAddr, Config.fontBase, Config.glyphBytes]
  omega

end Sys2Proof.Machine
end

