-- ==== Sys2Proof/Laws/PerInstr.lean ====
section
/-! SUPPORT. Per instruction: the word an instruction encodes to lies in the instruction's own row of the opcode map,
(op AND mask) = match (30_encoding.md R68). -/

namespace Sys2Proof.Laws.InOwnRow

/-- The encoding of `i` matches the row of `i`. -/
def Statement (i : Instr) : Prop := encode i &&& i.row.1 = i.row.2

theorem lead_only (l : Nibble) (nnn : Addr12) : encA l nnn &&& 0xF000#16 = encA l 0x000#12 := by
  have h : (0xF000#16 : Word) = encA 0xF#4 0x000#12 := rfl
  rw [h, encA, encA, encA]
  refine (BitVec.and_append (x₁ := l)).trans ?_
  congr 1
  · exact BitVec.and_allOnes
  · exact BitVec.and_zero

theorem lead_and_byte (l : Nibble) (x : Reg) (kk : Byte) : encXK l x kk &&& 0xF0FF#16 = encXK l 0 kk := by
  have h : (0xF0FF#16 : Word) = encXK 0xF#4 0 0xFF#8 := rfl
  rw [h, encXK, encXK, encXK]
  refine (BitVec.and_append (x₁ := l)).trans ?_
  congr 1
  · exact BitVec.and_allOnes
  · refine (BitVec.and_append (x₁ := BitVec.ofFin (w := 4) x)).trans ?_
    congr 1
    · exact BitVec.and_zero
    · exact BitVec.and_allOnes

theorem lead_and_nibble (l : Nibble) (x y : Reg) (n : Nibble) : encXY l x y n &&& 0xF00F#16 = encXY l 0 0 n := by
  have h : (0xF00F#16 : Word) = encXY 0xF#4 0 0 0xF#4 := rfl
  rw [h, encXY, encXY, encXY]
  refine (BitVec.and_append (x₁ := l)).trans ?_
  congr 1
  · exact BitVec.and_allOnes
  · refine (BitVec.and_append (x₁ := BitVec.ofFin (w := 4) x)).trans ?_
    congr 1
    · exact BitVec.and_zero
    · refine (BitVec.and_append (x₁ := BitVec.ofFin (w := 4) y)).trans ?_
      congr 1
      · exact BitVec.and_zero
      · exact BitVec.and_allOnes

theorem cls : Statement .cls := rfl
theorem ret : Statement .ret := rfl
theorem sys (nnn : Addr12) : Statement (.sys nnn) := lead_only _ _
theorem jp (nnn : Addr12) : Statement (.jp nnn) := lead_only _ _
theorem call (nnn : Addr12) : Statement (.call nnn) := lead_only _ _
theorem seByte (x : Reg) (kk : Byte) : Statement (.seByte x kk) := lead_only _ _
theorem sneByte (x : Reg) (kk : Byte) : Statement (.sneByte x kk) := lead_only _ _
theorem seReg (x y : Reg) (i : Nibble) : Statement (.seReg x y i) := lead_only _ _
theorem ldByte (x : Reg) (kk : Byte) : Statement (.ldByte x kk) := lead_only _ _
theorem addByte (x : Reg) (kk : Byte) : Statement (.addByte x kk) := lead_only _ _
theorem ldReg (x y : Reg) : Statement (.ldReg x y) := lead_and_nibble _ _ _ _
theorem orReg (x y : Reg) : Statement (.orReg x y) := lead_and_nibble _ _ _ _
theorem andReg (x y : Reg) : Statement (.andReg x y) := lead_and_nibble _ _ _ _
theorem xorReg (x y : Reg) : Statement (.xorReg x y) := lead_and_nibble _ _ _ _
theorem addReg (x y : Reg) : Statement (.addReg x y) := lead_and_nibble _ _ _ _
theorem subReg (x y : Reg) : Statement (.subReg x y) := lead_and_nibble _ _ _ _
theorem shr (x y : Reg) : Statement (.shr x y) := lead_and_nibble _ _ _ _
theorem subnReg (x y : Reg) : Statement (.subnReg x y) := lead_and_nibble _ _ _ _
theorem shl (x y : Reg) : Statement (.shl x y) := lead_and_nibble _ _ _ _
theorem sneReg (x y : Reg) (i : Nibble) : Statement (.sneReg x y i) := lead_only _ _
theorem ldI (nnn : Addr12) : Statement (.ldI nnn) := lead_only _ _
theorem jpV0 (nnn : Addr12) : Statement (.jpV0 nnn) := lead_only _ _
theorem rnd (x : Reg) (kk : Byte) : Statement (.rnd x kk) := lead_only _ _
theorem drw (x y : Reg) (n : Nibble) : Statement (.drw x y n) := lead_only _ _
theorem skp (x : Reg) : Statement (.skp x) := lead_and_byte _ _ _
theorem sknp (x : Reg) : Statement (.sknp x) := lead_and_byte _ _ _
theorem ldVxDt (x : Reg) : Statement (.ldVxDt x) := lead_and_byte _ _ _
theorem ldVxK (x : Reg) : Statement (.ldVxK x) := lead_and_byte _ _ _
theorem ldDtVx (x : Reg) : Statement (.ldDtVx x) := lead_and_byte _ _ _
theorem ldStVx (x : Reg) : Statement (.ldStVx x) := lead_and_byte _ _ _
theorem addIVx (x : Reg) : Statement (.addIVx x) := lead_and_byte _ _ _
theorem ldF (x : Reg) : Statement (.ldF x) := lead_and_byte _ _ _
theorem ldB (x : Reg) : Statement (.ldB x) := lead_and_byte _ _ _
theorem storeRegs (x : Reg) : Statement (.storeRegs x) := lead_and_byte _ _ _
theorem loadRegs (x : Reg) : Statement (.loadRegs x) := lead_and_byte _ _ _

end Sys2Proof.Laws.InOwnRow
end

