-- ==== Sys2Proof/Tests/Slice0.lean ====
section
/-! SUPPORT. Tests. Expected results come from the spec: 95_test_vectors.md ("TV 2.1 #4" is row 4 of its part 2.1), the
encodings of 30_encoding.md R68, the rules cited. The witnesses at the end show, for every statement with hypotheses, a
state and operands that meet them. -/

namespace Sys2Proof.Tests

open Sys2Proof Sys2Proof.Machine

/-! ### Helpers -/

/-- Something read off the next state, if there is one. -/
def see {α : Type} (f : State → α) : Result → Option α
  | .next t => some (f t)
  | .fault _ => none
  | .refused _ => none

/-- The reset state with an opcode at an address, PC there, and Step(key = None, rnd = 00) to come (95_test_vectors.md,
conventions). -/
def at' (pc op : Word) : State :=
  { State.reset with
    pc := pc
    mem := State.reset.mem.setBytes pc.toNat (bytesOfOp op)
    host := [.step none 0x00#8] }

/-- The opcode at 0x200. -/
def at200 (op : Word) : State := at' 0x0200#16 op

/-- A state with `n` return addresses held, each 0x0ABC. -/
def withDepth (s : State) (n : Fin 17) : State :=
  { s with stack := Vector.replicate 16 0x0ABC#16, depth := n }

/-- The reset state with DataOutOfRange latched at 0x200 by an earlier Step. -/
def faulty : State :=
  { at200 0x6A05#16 with started := true, fault := some { cause := .dataOutOfRange, pc := 0x0200#16 } }

/-! ### WellFormed -/

/-- 00E0 and 00EE are CLS and RET, never SYS (R65, R70 (a)); the neighbouring addresses are SYS. -/
theorem test_wf_refuses_cls_and_ret_as_sys :
    (Instr.sys 0x0E0#12).wf = false ∧ (Instr.sys 0x0EE#12).wf = false ∧
    (Instr.sys 0x0E1#12).wf = true ∧ (Instr.sys 0x000#12).wf = true := by decide

/-! ### Decoding: a word for every constructor, written out from R68 -/

theorem test_decode_control :
    decode 0x00E0#16 = .ok .cls ∧ decode 0x00EE#16 = .ok .ret ∧ decode 0x0123#16 = .ok (.sys 0x123#12) ∧
    decode 0x1234#16 = .ok (.jp 0x234#12) ∧ decode 0x2300#16 = .ok (.call 0x300#12) ∧
    decode 0x3A08#16 = .ok (.seByte 0xA 0x08#8) ∧ decode 0x4B09#16 = .ok (.sneByte 0xB 0x09#8) ∧
    decode 0x5127#16 = .ok (.seReg 1 2 0x7#4) ∧ decode 0x934F#16 = .ok (.sneReg 3 4 0xF#4) ∧
    decode 0xB301#16 = .ok (.jpV0 0x301#12) := by decide

theorem test_decode_alu :
    decode 0x6A05#16 = .ok (.ldByte 0xA 0x05#8) ∧ decode 0x7AFF#16 = .ok (.addByte 0xA 0xFF#8) ∧
    decode 0x8120#16 = .ok (.ldReg 1 2) ∧ decode 0x8121#16 = .ok (.orReg 1 2) ∧
    decode 0x8122#16 = .ok (.andReg 1 2) ∧ decode 0x8123#16 = .ok (.xorReg 1 2) ∧
    decode 0x8AB4#16 = .ok (.addReg 0xA 0xB) ∧ decode 0x8125#16 = .ok (.subReg 1 2) ∧
    decode 0x8126#16 = .ok (.shr 1 2) ∧ decode 0x8127#16 = .ok (.subnReg 1 2) ∧
    decode 0x812E#16 = .ok (.shl 1 2) ∧ decode 0xC3F0#16 = .ok (.rnd 3 0xF0#8) := by decide

theorem test_decode_display_keys_timers :
    decode 0xD015#16 = .ok (.drw 0 1 0x5#4) ∧ decode 0xE19E#16 = .ok (.skp 1) ∧ decode 0xE2A1#16 = .ok (.sknp 2) ∧
    decode 0xF107#16 = .ok (.ldVxDt 1) ∧ decode 0xF20A#16 = .ok (.ldVxK 2) ∧ decode 0xF315#16 = .ok (.ldDtVx 3) ∧
    decode 0xF418#16 = .ok (.ldStVx 4) := by decide

theorem test_decode_index :
    decode 0xA300#16 = .ok (.ldI 0x300#12) ∧ decode 0xF51E#16 = .ok (.addIVx 5) ∧ decode 0xF629#16 = .ok (.ldF 6) ∧
    decode 0xF733#16 = .ok (.ldB 7) ∧ decode 0xF855#16 = .ok (.storeRegs 8) ∧ decode 0xF965#16 = .ok (.loadRegs 9) := by
  decide

/-- R70: each class without a row is refused by its own name; a byte list that is not two bytes is no opcode (R60). -/
theorem test_decode_rejects_by_name :
    decode 0x8128#16 = .error (.eightGroup 0x8128#16) ∧ decode 0x812F#16 = .error (.eightGroup 0x812F#16) ∧
    decode 0xE19F#16 = .error (.eGroup 0xE19F#16) ∧ decode 0xF108#16 = .error (.fGroup 0xF108#16) ∧
    decodeBytes [0x6A#8] = .error (.notTwoBytes 1) ∧ decodeBytes [0x6A#8, 0x05#8, 0x00#8] = .error (.notTwoBytes 3) := by
  decide

/-- R62, R74: the encoder's fields stand where the spec puts them. -/
theorem test_encode :
    encode (.drw 0 1 0x5#4) = 0xD015#16 ∧ encode (.loadRegs 0xF) = 0xFF65#16 ∧ encode (.shl 1 2) = 0x812E#16 ∧
    bytesOfOp (encode (.ldI 0x300#12)) = [0xA3#8, 0x00#8] := by decide

/-! ### Control flow (TV 2.1) -/

/-- TV 2.7: 8128 leaves all but PC and emits Diag(8128); 0000 likewise. -/
theorem test_unrecognized :
    see (fun t => (t.pc, t.out.diag, t.fault)) (step (at200 0x8128#16)) = some (0x0202#16, some 0x8128#16, none) ∧
    see (fun t => (t.pc, t.out.diag, t.fault)) (step (at200 0x0000#16)) = some (0x0202#16, some 0x0000#16, none) := by
  decide

/-- TV 2.1 #1, #3: the jump, and the fault of the Step after a jump to 0xFFF. -/
theorem test_jp :
    see State.pc (step (at200 0x1234#16)) = some 0x0234#16 ∧
    see (fun t => (t.pc, t.fault)) (step (at' 0x0FFF#16 0x2300#16)) =
      some (0x0FFF#16, some { cause := .fetchOutOfRange, pc := 0x0FFF#16 }) := by decide

/-- TV 2.1 #5, #6: the last slot, and the overflow. -/
theorem test_call :
    see (fun t => (t.sp, t.stack[15], t.pc)) (step (withDepth (at' 0x0456#16 0x2300#16) 15)) =
      some (15, 0x0458#16, 0x0300#16) ∧
    see (fun t => (t.fault, t.pc, t.sp, t.stack[15])) (step (withDepth (at200 0x2300#16) 16)) =
      some (some { cause := .stackOverflow, pc := 0x0200#16 }, 0x0200#16, 15, 0x0ABC#16) := by decide

/-- TV 2.1 #8, #9: the slot SP points to, and the underflow. -/
theorem test_ret :
    see (fun t => (t.pc, t.sp, t.stack[3])) (step (withDepth (at200 0x00EE#16) 4)) =
      some (0x0ABC#16, 2, 0x0ABC#16) ∧
    see (fun t => (t.fault, t.pc, t.sp)) (step (at200 0x00EE#16)) =
      some (some { cause := .stackUnderflow, pc := 0x0200#16 }, 0x0200#16, -1) := by decide

/-- TV 2.1 #12: not reduced to 12 bits. -/
theorem test_jpV0 : see State.pc (step ((at200 0xBFFF#16).setReg 0 0xFF#8)) = some 0x10FE#16 := by decide

/-- TV 2.1 #13, #14, #26. -/
theorem test_seByte :
    see State.pc (step ((at200 0x3A08#16).setReg 0xA 0x08#8)) = some 0x0204#16 ∧
    see State.pc (step ((at200 0x3A08#16).setReg 0xA 0x09#8)) = some 0x0202#16 ∧
    see State.pc (step (at' 0x0FFE#16 0x3000#16)) = some 0x1002#16 := by decide

/-- TV 2.1 #15, #16. -/
theorem test_sneByte :
    see State.pc (step ((at200 0x4A08#16).setReg 0xA 0x08#8)) = some 0x0202#16 ∧
    see State.pc (step ((at200 0x4A08#16).setReg 0xA 0x09#8)) = some 0x0204#16 := by decide

/-- TV 2.1 #18, #19: the trailing nibble is not examined. -/
theorem test_seReg :
    see State.pc (step (((at200 0x5120#16).setReg 1 0x33#8).setReg 2 0x34#8)) = some 0x0202#16 ∧
    see (fun t => (t.pc, t.out.diag)) (step (((at200 0x5127#16).setReg 1 0x33#8).setReg 2 0x33#8)) =
      some (0x0204#16, none) := by decide

/-- TV 2.1 #22, #23. -/
theorem test_sneReg :
    see State.pc (step (((at200 0x9120#16).setReg 1 0x33#8).setReg 2 0x33#8)) = some 0x0202#16 ∧
    see (fun t => (t.pc, t.out.diag)) (step (((at200 0x912F#16).setReg 1 0x33#8).setReg 2 0x34#8)) =
      some (0x0204#16, none) := by decide

/-! ### Registers and arithmetic (TV 2.2; VF = 55 before where a flag must not be written) -/

/-- V1 and V2 given, VF = 55. -/
def two (op : Word) (a b : Byte) : State := (((at200 op).setReg 1 a).setReg 2 b).setReg 0xF 0x55#8

/-- V1, V2 and VF after. -/
def after12F (s : State) : Option (Byte × Byte × Byte) := see (fun t => (t.reg 1, t.reg 2, t.reg 0xF)) (step s)

/-- TV 2.1 #27: at the last word of memory, PC goes to 0x1000. -/
theorem test_ldByte :
    see (fun t => (t.reg 0xA, t.pc, t.fault)) (step (at' 0x0FFE#16 0x6A05#16)) =
      some (0x05#8, 0x1000#16, none) := by decide

/-- TV 2.2 #3, #4: no flag; VF as an ordinary destination. -/
theorem test_addByte :
    see (fun t => (t.reg 0xA, t.reg 0xF)) (step (((at200 0x7A01#16).setReg 0xA 0xFF#8).setReg 0xF 0x55#8)) =
      some (0x00#8, 0x55#8) ∧
    see (fun t => t.reg 0xF) (step ((at200 0x7F01#16).setReg 0xF 0xFF#8)) = some 0x00#8 := by decide

/-- TV 2.2 #6. -/
theorem test_ldReg : after12F (two 0x8120#16 0x00#8 0x7E#8) = some (0x7E#8, 0x7E#8, 0x55#8) := by decide

/-- TV 2.2 #8, #9, #10. -/
theorem test_logic :
    after12F (two 0x8121#16 0xF0#8 0x0F#8) = some (0xFF#8, 0x0F#8, 0x55#8) ∧
    after12F (two 0x8122#16 0xF3#8 0x3F#8) = some (0x33#8, 0x3F#8, 0x55#8) ∧
    after12F (two 0x8123#16 0xFF#8 0x0F#8) = some (0xF0#8, 0x0F#8, 0x55#8) := by decide

/-- TV 2.2 #12, #13: the carry at 256 and none at 255. -/
theorem test_addReg :
    after12F (two 0x8124#16 0xFF#8 0x01#8) = some (0x00#8, 0x01#8, 0x01#8) ∧
    after12F (two 0x8124#16 0x80#8 0x7F#8) = some (0xFF#8, 0x7F#8, 0x00#8) := by decide

/-- R103: with x = VF the result stays; with y = VF the old VF is the operand. -/
theorem test_addReg_flag_operands :
    see (fun t => t.reg 0xF) (step (((at200 0x8F14#16).setReg 0xF 0xFF#8).setReg 1 0x03#8)) = some 0x02#8 ∧
    see (fun t => (t.reg 1, t.reg 0xF)) (step (((at200 0x81F4#16).setReg 0xF 0xFF#8).setReg 1 0x03#8)) =
      some (0x02#8, 0x01#8) := by decide

/-- TV 2.2 #18, #19: the wrap, and no flag on equality. -/
theorem test_subReg :
    after12F (two 0x8125#16 0x03#8 0x05#8) = some (0xFE#8, 0x05#8, 0x00#8) ∧
    after12F (two 0x8125#16 0x07#8 0x07#8) = some (0x00#8, 0x07#8, 0x00#8) := by decide

/-- TV 2.2 #23, #27: Vy is neither read nor written. -/
theorem test_shr :
    after12F (two 0x8126#16 0x05#8 0xEE#8) = some (0x02#8, 0xEE#8, 0x01#8) ∧
    after12F (two 0x8126#16 0xFF#8 0xEE#8) = some (0x7F#8, 0xEE#8, 0x01#8) := by decide

/-- TV 2.2 #28, and R99's other example. -/
theorem test_subnReg :
    after12F (two 0x8127#16 0x03#8 0x05#8) = some (0x02#8, 0x05#8, 0x01#8) ∧
    after12F (two 0x8127#16 0x05#8 0x03#8) = some (0xFE#8, 0x03#8, 0x00#8) := by decide

/-- R100's cases. -/
theorem test_shl :
    after12F (two 0x812E#16 0x81#8 0xEE#8) = some (0x02#8, 0xEE#8, 0x01#8) ∧
    after12F (two 0x812E#16 0x7F#8 0xEE#8) = some (0xFE#8, 0xEE#8, 0x00#8) := by decide

/-- R101: 0xB7 AND 0x3C = 0x34. -/
theorem test_rnd :
    see (fun t => (t.reg 3, t.pc)) (step { at200 0xC33C#16 with host := [.step none 0xB7#8] }) =
      some (0x34#8, 0x0202#16) := by decide

/-! ### Display (TV 2.3, P4) -/

/-- A state with the sprite C0, 81 at 0x300, I there, V0 = 62 and V1 = 31, about to run D012. -/
def corner : State :=
  { ((at200 0xD012#16).setReg 0 0x3E#8).setReg 1 0x1F#8 with
    mem := (at200 0xD012#16).mem.setBytes 0x300 [0xC0#8, 0x81#8]
    i := 0x0300#16 }

/-- A framebuffer with one pixel set. -/
def onePixel (c : Fin 64) (r : Fin 32) : Framebuffer := Framebuffer.clear.setPixel c r true

/-- P4, Step 4: wrap in both directions, bit 7 leftmost, no collision. -/
theorem test_drw_wraps :
    see (fun t => (t.fb, t.reg 0xF)) (step corner) =
      some ((((onePixel 62 31).setPixel 63 31 true).setPixel 62 0 true).setPixel 5 0 true, 0x00#8) := by decide

/-- TV 3 F4's like for DRW: a row at 0x1000 faults and VF keeps its value (R106, D6). -/
theorem test_drw_out_of_range :
    see (fun t => (t.fault, t.fb, t.reg 0xF)) (step { (at200 0xD012#16).setReg 0xF 0x55#8 with i := 0x0FFF#16 }) =
      some (some { cause := .dataOutOfRange, pc := 0x0200#16 }, Framebuffer.clear, 0x55#8) := by decide

/-- TV 1.2 S2. -/
theorem test_cls :
    see (fun t => (t.fb, t.pc)) (step { at200 0x00E0#16 with fb := (onePixel 63 31).setPixel 17 5 true }) =
      some (Framebuffer.clear, 0x0202#16) := by decide

/-! ### Keys and timers (TV 2.4, P6) -/

/-- SKP never skips and SKNP always does, key present or not (R110, R111). -/
theorem test_key_skips :
    see State.pc (step { at200 0xE19E#16 with host := [.step (some 0x00#8) 0x00#8] }) = some 0x0202#16 ∧
    see State.pc (step { at200 0xE1A1#16 with host := [.step (some 0x00#8) 0x00#8] }) = some 0x0204#16 := by decide

/-- P6 #13, #16: waiting, then the whole key byte. -/
theorem test_ldVxK :
    see (fun t => (t.pc, t.reg 2, t.out.wait, t.out.keyAck)) (step (at200 0xF20A#16)) =
      some (0x0200#16, 0x00#8, true, false) ∧
    see (fun t => (t.pc, t.reg 2, t.out.wait, t.out.keyAck))
      (step { at200 0xF20A#16 with host := [.step (some 0xEB#8) 0x00#8] }) =
      some (0x0202#16, 0xEB#8, false, true) := by decide

/-- R112, R114, R115. -/
theorem test_timer_moves :
    see (fun t => (t.reg 1, t.dt)) (step ((at200 0xF107#16).setDt 0x3C#8)) = some (0x3C#8, 0x3C#8) ∧
    see (fun t => (t.dt, t.st)) (step ((at200 0xF115#16).setReg 1 0x3C#8)) = some (0x3C#8, 0x00#8) ∧
    see (fun t => (t.dt, t.st)) (step ((at200 0xF118#16).setReg 1 0x05#8)) = some (0x00#8, 0x05#8) := by decide

/-! ### Index register and memory (TV 2.5) -/

/-- R120, R121: an I above 0xFFF is replaced; the sum is not masked to 12 bits and wraps at 16. -/
theorem test_ldI_addIVx :
    see State.i (step ((at200 0xA300#16).setI 0xFFFF#16)) = some 0x0300#16 ∧
    see State.i (step (((at200 0xF11E#16).setI 0x0FFE#16).setReg 1 0x05#8)) = some 0x1003#16 ∧
    see State.i (step (((at200 0xF11E#16).setI 0xFFFF#16).setReg 1 0x01#8)) = some 0x0000#16 := by decide

/-- P5, and R122 on all 8 bits. -/
theorem test_ldF :
    see State.i (step ((at200 0xF129#16).setReg 1 0x05#8)) = some 0x0019#16 ∧
    see State.i (step ((at200 0xF129#16).setReg 1 0xFF#8)) = some 0x04FB#16 := by decide

/-- TV 3 F4 (b), (a): 255 to the last three bytes, and nothing where the third is outside. -/
theorem test_ldB :
    see (fun t => (t.mem.read 0xFFD, t.mem.read 0xFFE, t.mem.read 0xFFF))
      (step (((at200 0xF033#16).setI 0x0FFD#16).setReg 0 0xFF#8)) = some (some 2#8, some 5#8, some 5#8) ∧
    see (fun t => (t.mem.read 0xFFE, t.fault)) (step (((at200 0xF033#16).setI 0x0FFE#16).setReg 0 0xFF#8)) =
      some (some 0#8, some { cause := .dataOutOfRange, pc := 0x0200#16 }) := by decide

/-- R124: x itself included, the register after it not, I unchanged. -/
theorem test_storeRegs :
    see (fun t => (t.mem.read 0x300, t.mem.read 0x301, t.mem.read 0x302, t.i))
      (step (((((at200 0xF155#16).setI 0x0300#16).setReg 0 0x12#8).setReg 1 0x0A#8).setReg 2 0xEE#8)) =
      some (some 0x12#8, some 0x0A#8, some 0x00#8, 0x0300#16) := by decide

/-- P3 Step 4: V0 to V2 from 02 05 04, V3 kept. -/
theorem test_loadRegs :
    see (fun t => (t.reg 0, t.reg 1, t.reg 2, t.reg 3, t.i))
      (step { (at200 0xF265#16).setReg 3 0x77#8 with
        mem := (at200 0xF265#16).mem.setBytes 0x300 [2#8, 5#8, 4#8, 9#8]
        i := 0x0300#16 }) = some (2#8, 5#8, 4#8, 0x77#8, 0x0300#16) := by decide

/-! ### The other events, the fetch, the fixed names -/

/-- P6 #8, #10, and a Tick while faulted. -/
theorem test_tick :
    see (fun t => (t.dt, t.st)) (step { (at200 0x1200#16).setDt 0x01#8 with host := [.tick] }) =
      some (0x00#8, 0x00#8) ∧
    see State.dt (step { faulty.setDt 0x02#8 with host := [.tick] }) = some 0x02#8 := by decide

/-- R53: bytes to 0x200 onwards; ignored after the first Step. -/
theorem test_load :
    see (fun t => (t.mem.read 0x1FF, t.mem.read 0x200, t.mem.read 0x201, t.mem.read 0x202))
      (step { State.reset with host := [.load [0x6A#8, 0x05#8]] }) =
      some (some 0x00#8, some 0x6A#8, some 0x05#8, some 0x00#8) ∧
    see (fun t => t.mem) (step { State.reset with host := [.load [0x6A#8]], started := true }) =
      some State.reset.mem := by decide

/-- R150: Reset clears the latch and STARTED. -/
theorem test_reset_event :
    see (fun t => (t.fault, t.started, t.pc)) (step { faulty with host := [.reset] }) = some (none, false, 0x0200#16) := by
  decide

/-- TV 2.1 #28: no alignment of PC. -/
theorem test_fetch_odd :
    see (fun t => (t.reg 0xA, t.pc)) (step (at' 0x0201#16 0x6A05#16)) = some (0x05#8, 0x0203#16) := by decide

/-- R55: glyph 5 of the default FONT, and a cell above the font. -/
theorem test_default_font :
    (List.range 5).map (fun k => State.reset.mem.read (0x19 + k)) =
      [some 0xF0#8, some 0x80#8, some 0xF0#8, some 0x10#8, some 0xF0#8] ∧
    State.reset.mem.read 0x050 = some 0x00#8 := by decide

/-- A word placed by withFetchWord is what the next step runs. -/
theorem test_withFetchWord :
    see (fun t => (t.reg 0xA, t.pc)) (step (State.reset.withFetchWord 16 0x6A05)) = some (0x05#8, 0x0202#16) ∧
    decodeTableWord 16 0x6A05 = some (.ldByte 0xA 0x05#8) := by decide

/-! ### Witnesses: states and operands that meet the hypotheses of the statements -/

theorem witness_DecodeEncodeAgree : (Instr.sys 0x0E1#12).wf = true ∧ (Instr.drw 0 1 0x5#4).wf = true := by decide

theorem witness_EncodeDecodeAgree : decode 0x5127#16 = .ok (.seReg 1 2 0x7#4) := by decide

theorem witness_DecoderTakesFirstRow :
    decode 0x00E0#16 = .ok .cls ∧ decode 0x8128#16 = .error (.eightGroup 0x8128#16) := by decide

theorem witness_StepRunsDecodedInstruction :
    (at200 0x6A05#16).ready ∧ (at200 0x6A05#16).mem.read 0x200 = some 0x6A#8 ∧
    (at200 0x6A05#16).mem.read 0x201 = some 0x05#8 ∧ (at200 0x6A05#16).pc.toNat = 0x200 ∧
    decode (opOfBytes 0x6A#8 0x05#8) = .ok (.ldByte 0xA 0x05#8) :=
  ⟨⟨rfl, rfl⟩, by decide, by decide, by decide, by decide⟩

/-- The last word of memory, an E-group word. -/
theorem witness_StepOnUnrecognizedWord :
    (at' 0x0FFE#16 0xE19F#16).ready ∧ (at' 0x0FFE#16 0xE19F#16).opcodeAtPc 0xE19F#16 ∧
    unrecognizedWord 0xE19F#16 = true :=
  ⟨⟨rfl, rfl⟩, ⟨0xE1#8, 0x9F#8, by decide, by decide, by decide⟩, by decide⟩

theorem witness_FetchIsBigEndianOrFaults :
    (at' 0x0FFE#16 0x6A05#16).pc.toNat < 0xFFF ∧
    (0xFFF ≤ (at' 0x0FFF#16 0x0000#16).pc.toNat ∧ (at' 0x0FFF#16 0x0000#16).ready) :=
  ⟨by decide, by decide, rfl, rfl⟩

/-- A faulted state whose next event is a Step, and one whose next is a Reset. -/
theorem witness_FaultFreezesUntilReset :
    faulty.fault = some { cause := .dataOutOfRange, pc := 0x0200#16 } ∧ (∀ es, faulty.host ≠ .reset :: es) ∧
    faulty.stepIsNext = true ∧ ({ faulty with host := [.reset] } : State).host = .reset :: [] :=
  ⟨rfl, fun es h => (by cases h), rfl, rfl⟩

/-- RET at reset latches StackUnderflow. -/
theorem witness_FaultsArePrecise :
    (at200 0x00EE#16).fault = none ∧
    see State.fault (step (at200 0x00EE#16)) = some (some { cause := .stackUnderflow, pc := 0x0200#16 }) := by decide

/-- Each cause at its first faulting value and just below it. -/
theorem witness_FaultsExactlyWhere_data :
    see State.fault (step ((at200 0xD011#16).setI 0x0FFF#16)) = some none ∧
    see State.fault (step ((at200 0xD011#16).setI 0x1000#16)) =
      some (some { cause := .dataOutOfRange, pc := 0x0200#16 }) ∧
    see State.fault (step ((at200 0xF355#16).setI 0x0FFC#16)) = some none ∧
    see State.fault (step ((at200 0xF355#16).setI 0x0FFD#16)) =
      some (some { cause := .dataOutOfRange, pc := 0x0200#16 }) ∧
    see State.fault (step ((at200 0xF365#16).setI 0x0FFC#16)) = some none ∧
    see State.fault (step ((at200 0xF365#16).setI 0xFFFF#16)) =
      some (some { cause := .dataOutOfRange, pc := 0x0200#16 }) := by decide

theorem witness_FaultsExactlyWhere_control :
    see State.fault (step (at' 0x0FFE#16 0x0000#16)) = some none ∧
    see State.fault (step (at' 0x0FFF#16 0x0000#16)) =
      some (some { cause := .fetchOutOfRange, pc := 0x0FFF#16 }) ∧
    see State.fault (step (withDepth (at200 0x2300#16) 15)) = some none ∧
    see State.fault (step (withDepth (at200 0x00EE#16) 1)) = some none := by decide

/-- The invariant holds of a faulted state that no run need reach, and its next event completes. -/
theorem witness_InvariantKept : faulty.Inv ∧ (see State.fault (step faulty)).isSome = true := by
  refine ⟨⟨by decide, by decide, by decide, ?_⟩, by decide⟩
  rintro f ⟨⟩
  exact ⟨rfl, rfl, by decide⟩

theorem witness_InputsReadOnlyByKeyAndRandom :
    (∀ x, Instr.skp 0 ≠ .ldVxK x) ∧ (∀ x kk, Instr.skp 0 ≠ .rnd x kk) :=
  ⟨(by intro x h; cases h), (by intro x kk h; cases h)⟩

theorem witness_OutputsOfStep : (at200 0xF20A#16).ready ∧ (at200 0xF20A#16).key = none := ⟨⟨rfl, rfl⟩, rfl⟩

/-- A DRW step that changes a pixel. -/
theorem witness_FramebufferWriters :
    corner.fb.pixel 5 0 = false ∧ see (fun t => t.fb.pixel 5 0) (step corner) = some true := by decide

/-- A byte changed by LD B, by LD [I],Vx and by Load. -/
theorem witness_MemoryWriters :
    see (fun t => t.mem.read 0xFFF) (step (((at200 0xF033#16).setI 0x0FFD#16).setReg 0 0xFF#8)) = some (some 5#8) ∧
    see (fun t => t.mem.read 0x301) (step (((at200 0xF155#16).setI 0x0300#16).setReg 1 0x0A#8)) = some (some 0x0A#8) ∧
    see (fun t => t.mem.read 0x200) (step { State.reset with host := [.load [0x6A#8]] }) = some (some 0x6A#8) ∧
    State.reset.mem.read 0x200 = some 0#8 := by decide

theorem witness_RegisterWriters :
    (at200 0x6A05#16).reg 0xA = 0x00#8 ∧ see (fun t => t.reg 0xA) (step (at200 0x6A05#16)) = some 0x05#8 := by decide

theorem witness_IndexRegisterWriters :
    (at200 0xA300#16).i = 0x0000#16 ∧ see State.i (step (at200 0xA300#16)) = some 0x0300#16 := by decide

theorem witness_TimerWriters :
    (at200 0xF115#16).dt = 0x00#8 ∧ see State.dt (step ((at200 0xF115#16).setReg 1 0x3C#8)) = some 0x3C#8 ∧
    see State.st (step ((at200 0xF118#16).setReg 1 0x05#8)) = some 0x05#8 := by decide

theorem witness_StackWriters :
    (at200 0x2300#16).sp = -1 ∧ see State.sp (step (at200 0x2300#16)) = some 0 ∧
    see (fun t => t.stack[0]) (step (at200 0x2300#16)) = some 0x0202#16 ∧
    see State.sp (step (withDepth (at200 0x00EE#16) 1)) = some (-1) := by decide

/-- The two side clauses of JP: the last address, and the jump's own. -/
theorem witness_JumpGoesToAddress :
    (0xFFF#12).toNat = 0xFFF ∧ (0x200#12).toNat = (at200 0x1200#16).pc.toNat := by decide

theorem witness_CallPushesOrOverflows :
    (withDepth State.reset 15).sp < 15 ∧ (withDepth State.reset 16).sp = 15 := by decide

theorem witness_RetPopsOrUnderflows : 0 ≤ (withDepth State.reset 1).sp ∧ (withDepth State.reset 0).sp = -1 := by decide

/-- CALL at the last free slot; the state it answers, with PC and a register changed since, is such a `u`. -/
theorem witness_CallThenRetReturns :
    (withDepth State.reset 15).sp < 15 ∧
    ∃ t, exec (.call 0x300#12) (withDepth State.reset 15) = .next t ∧
      ((t.setPc 0x0456#16).setReg 0 0x01#8).stack = t.stack ∧ ((t.setPc 0x0456#16).setReg 0 0x01#8).depth = t.depth :=
  ⟨by decide, _, rfl, rfl, rfl⟩

theorem witness_ImmediateAddAndRegisterCopy : (3 : Reg) = 3 := rfl

/-- The destination is not VF: AddSetsCarry, SubtractSetsStrictlyGreater, ShiftsByOne. -/
theorem witness_destination_not_flag : (0xE : Reg) ≠ 0xF := by decide

theorem witness_RandomIsMasked : (at200 0xC3FF#16).host = .step none 0x00#8 :: [] := rfl

theorem witness_KeyTakenOrWait :
    ({ State.reset with host := [.step (some 0xFF#8) 0x00#8] } : State).key = some 0xFF#8 ∧
    (at200 0xF20A#16).key = none := ⟨rfl, rfl⟩

/-- The last sprite that fits, a sprite with no rows anywhere; a draw that collides and one that does not. -/
theorem witness_DrawTogglesCoveredPixels :
    (State.reset.setI 0x0FF1#16).i.toNat + (0xF#4).toNat ≤ 0x1000 ∧ (0x0#4).toNat = 0 ∧
    see (fun t => (t.fb.pixel 62 31, t.reg 0xF)) (exec (.drw 0 1 0x2#4) { corner with fb := onePixel 62 31 }) =
      some (false, 0x01#8) ∧
    see (fun t => t.reg 0xF) (exec (.drw 0 1 0x2#4) corner) = some 0x00#8 := by decide

theorem witness_DrawEdges :
    0 < (0x2#4).toNat ∧ 0x1000 ≤ (State.reset.setI 0x0FFF#16).i.toNat + (0x2#4).toNat - 1 ∧ (0x0#4).toNat = 0 := by decide

/-- The sprite fits, DRW answers `t`, and `u` is the state before with `t`'s framebuffer. -/
theorem witness_DrawTwiceRestores :
    corner.i.toNat + (0x2#4).toNat ≤ 0x1000 ∧
    ∃ t, exec (.drw 0 1 0x2#4) corner = .next t ∧ (corner.setFb t.fb).fb = t.fb ∧
      (corner.setFb t.fb).reg 0 = corner.reg 0 ∧ (corner.setFb t.fb).reg 1 = corner.reg 1 ∧
      (corner.setFb t.fb).i = corner.i ∧ (∀ a, (corner.setFb t.fb).mem.read a = corner.mem.read a) :=
  ⟨by decide, _, rfl, rfl, rfl, rfl, rfl, fun _ => rfl⟩

theorem witness_DecimalDigitsStored :
    State.reset.mem.wf = true ∧ (State.reset.setI 0x0FFD#16).i.toNat + 2 < 0x1000 ∧
    0x1000 ≤ (State.reset.setI 0x0FFE#16).i.toNat + 2 := by decide

/-- RegistersStored and RegistersLoaded: V0 to V3 end at 0xFFF, or one further. -/
theorem witness_RegistersStored_RegistersLoaded :
    State.reset.mem.wf = true ∧ (State.reset.setI 0x0FFC#16).i.toNat + (3 : Reg).val < 0x1000 ∧
    0x1000 ≤ (State.reset.setI 0x0FFD#16).i.toNat + (3 : Reg).val := by decide

/-- P7's store over the next instruction. -/
theorem witness_StoreSeenByNextFetch :
    ((at200 0xF155#16).setI 0x0202#16).ready ∧ ((at200 0xF155#16).setI 0x0202#16).mem.wf = true ∧
    ((at200 0xF155#16).setI 0x0202#16).current = some (.storeRegs 1) ∧ 1 ≤ (1 : Reg).val ∧
    ((at200 0xF155#16).setI 0x0202#16).i.toNat = ((at200 0xF155#16).setI 0x0202#16).pc.toNat + 2 ∧
    ((at200 0xF155#16).setI 0x0202#16).i.toNat + (1 : Reg).val < 0x1000 :=
  ⟨⟨rfl, rfl⟩, by decide, by decide, by decide, by decide, by decide⟩

/-- The clauses at their boundaries: 0x04F, 0x050, 0xFFF, 0x1000. -/
theorem witness_ResetMemory :
    State.reset.mem.read 0x04F = some 0x80#8 ∧ State.reset.mem.read 0x050 = some 0x00#8 ∧
    State.reset.mem.read 0xFFF = some 0x00#8 ∧ State.reset.mem.read 0x1000 = none := by decide

theorem witness_ResetEventResets : ({ faulty with host := [.reset, .tick] } : State).host = .reset :: [.tick] := rfl

/-- An image of exactly 3584 bytes. -/
theorem witness_LoadPlacesImage : (List.replicate 3584 0x55#8).length ≤ 3584 := by rw [List.length_replicate]

/-- A Load that is carried out, one after the first Step, one while faulted. -/
theorem witness_LoadTruncatesOrIsIgnored :
    ({ State.reset with host := [.load [0x6A#8]] } : State).host = .load [0x6A#8] :: [] ∧
    State.reset.mem.wf = true ∧ State.reset.started = false ∧ State.reset.fault = none ∧
    faulty.started = true ∧ faulty.fault ≠ none := by decide

theorem witness_TickCountsDown :
    ({ at200 0x1200#16 with host := [.tick] } : State).host = .tick :: [] ∧ (at200 0x1200#16).fault = none ∧
    faulty.fault ≠ none := by decide

theorem witness_QuiescentStatesStay :
    (at200 0x1200#16).ready ∧ (at200 0x1200#16).atSelfJump ∧ (at200 0xF20A#16).ready ∧
    (at200 0xF20A#16).current = some (.ldVxK 2) ∧ (at200 0xF20A#16).key = none :=
  ⟨⟨rfl, rfl⟩, ⟨0x200#12, by decide, by decide⟩, ⟨rfl, rfl⟩, by decide, rfl⟩

end Sys2Proof.Tests
end

section
/-! PROOFS. Totality of the step (00_scope.md R7; 70_reset_and_hazards.md R157): no instruction and no event stops the
machine. -/

namespace Sys2Proof.Machine

/-- The six rows that can raise a fault end in `State.commit`, which latches the fault in a next state (R132; log 5);
every other row answers its next state outright. -/
theorem exec_next (i : Instr) (s : State) : ∃ t, exec i s = .next t := by
  cases i
  case ret | call | drw | ldB | storeRegs | loadRegs => exact s.commit_next _
  all_goals exact ⟨_, rfl⟩

theorem State.stepEvent_next (s : State) : ∃ t, s.stepEvent = .next t := by
  obtain ⟨_, h⟩ | ⟨_, _, h⟩ | ⟨_, i, _, _, _, h⟩ | ⟨_, _, _, _, _, h⟩ := s.stepEvent_cases
  · exact ⟨_, h⟩
  · exact ⟨_, h⟩
  · obtain ⟨t, ht⟩ := exec_next i s.beginStep
    exact ⟨t.consume, by rw [h, ht, mapNext_next]⟩
  · exact ⟨_, h⟩

/-- Settles O10: a Reset, a Load and a Tick answer a next state outright, and so does a Step, because every instruction
does. -/
theorem everyEventCompletes : Obligations.EveryEventCompletes := by
  intro s
  obtain ⟨_, h⟩ | ⟨_, _, h⟩ | ⟨_, _, _, h⟩ | ⟨_, _, h⟩ := step_cases s
  · rw [h]; exact s.stepEvent_next
  · exact ⟨_, h⟩
  · exact ⟨_, h⟩
  · exact ⟨_, h⟩

end Sys2Proof.Machine
end

section
/-! PROOFS. What an instruction that completes has done, once for all 35 rows (30_encoding.md R68; 10_state.md R20 to
R31): the rules of `Frame` for the named operations, then one inversion of `exec`. -/

namespace Sys2Proof

open Machine

/-- The pieces of state a row may change when it does not fault, PC apart. -/
def Instr.effects : Instr → Effects
  | .ldByte x _ | .addByte x _ | .ldReg x _ | .orReg x _ | .andReg x _ | .xorReg x _ | .rnd x _ | .ldVxDt x =>
    { regs := [x] }
  | .addReg x _ | .subReg x _ | .shr x _ | .subnReg x _ | .shl x _ => { regs := [x, 0xF] }
  | .ldVxK x => { regs := [x], out := true }
  | .loadRegs x => { regs := (List.finRange 16).filter (· ≤ x) }
  | .cls => { fb := true }
  | .drw _ _ _ => { regs := [0xF], fb := true }
  | .ret | .call _ => { stack := true }
  | .ldI _ | .addIVx _ | .ldF _ => { i := true }
  | .ldDtVx _ => { dt := true }
  | .ldStVx _ => { st := true }
  | .ldB _ | .storeRegs _ => { mem := true }
  | .sys _ => { out := true }
  | .jp _ | .jpV0 _ | .seByte _ _ | .sneByte _ _ | .seReg _ _ _ | .sneReg _ _ _ | .skp _ | .sknp _ => {}

/-- The registers in the effects are those of R20 and R21. -/
theorem Instr.mem_effects_regs (i : Instr) (r : Reg) : r ∈ i.effects.regs ↔ i.mayWrite r = true := by
  cases i <;> simp [effects, mayWrite]

theorem Instr.effects_i {i : Instr} (h : i.effects.i = true) :
    (∃ nnn, i = .ldI nnn) ∨ (∃ x, i = .addIVx x) ∨ ∃ x, i = .ldF x := by
  cases i <;> simp [effects] at h ⊢

theorem Instr.effects_dt {i : Instr} (h : i.effects.dt = true) : ∃ x, i = .ldDtVx x := by
  cases i <;> simp [effects] at h ⊢

theorem Instr.effects_st {i : Instr} (h : i.effects.st = true) : ∃ x, i = .ldStVx x := by
  cases i <;> simp [effects] at h ⊢

theorem Instr.effects_stack {i : Instr} (h : i.effects.stack = true) : (∃ nnn, i = .call nnn) ∨ i = .ret := by
  cases i <;> simp [effects] at h ⊢

theorem Instr.effects_fb {i : Instr} (h : i.effects.fb = true) : i = .cls ∨ ∃ x y n, i = .drw x y n := by
  cases i <;> simp [effects] at h ⊢

/-- The row stores `n` bytes at I (44_index_memory.md R123, R124). -/
def Instr.Stores (i : Instr) (n : Nat) : Prop :=
  (∃ x, i = .ldB x ∧ n = 3) ∨ ∃ x, i = .storeRegs x ∧ n = x.val + 1

end Sys2Proof

namespace Sys2Proof.Machine

variable {e : Effects} {s t : State}

/-! ### The rules of Frame: one per operation -/

theorem Frame.refl (e : Effects) (s : State) : Frame e s s := by simp [Frame]

theorem Frame.setPc (h : Frame e s t) (w : Word) : Frame e s (t.setPc w) := h

theorem Frame.setReg {r : Reg} (h : Frame e s t) (hr : r ∈ e.regs) (b : Byte) : Frame e s (t.setReg r b) := by
  obtain ⟨hregs, hrest⟩ := h
  refine ⟨fun q hq => ?_, hrest⟩
  rw [State.setReg_reg_other _ _ (ne_of_mem_of_not_mem hr hq).symm, hregs q hq]

theorem Frame.setI (h : Frame e s t) (he : e.i = true) (w : Word) : Frame e s (t.setI w) := by
  simpa [Frame, he] using h

theorem Frame.setDt (h : Frame e s t) (he : e.dt = true) (b : Byte) : Frame e s (t.setDt b) := by
  simpa [Frame, he] using h

theorem Frame.setSt (h : Frame e s t) (he : e.st = true) (b : Byte) : Frame e s (t.setSt b) := by
  simpa [Frame, he] using h

theorem Frame.setStack (h : Frame e s t) (he : e.stack = true) (k : Vector Word 16) (d : Fin 17) :
    Frame e s { t with stack := k, depth := d } := by
  simpa [Frame, he, State.reg] using h

theorem Frame.setBytes (h : Frame e s t) (he : e.mem = true) (a : Nat) (bs : List Byte) :
    Frame e s (t.setMem (t.mem.setBytes a bs)) := by
  simpa [Frame, he] using h

theorem Frame.setFb (h : Frame e s t) (he : e.fb = true) (fb : Framebuffer) : Frame e s (t.setFb fb) := by
  simpa [Frame, he] using h

theorem Frame.setOut (h : Frame e s t) (he : e.out = true) (o : Outputs) : Frame e s (t.setOut o) := by
  simpa [Frame, he] using h

theorem Frame.setRegs {k : Nat} {bs : List Byte} (h : Frame e s t) (hk : k + bs.length ≤ 16)
    (hr : ∀ q : Reg, q.val < k + bs.length → q ∈ e.regs) : Frame e s (t.setRegs k bs) := by
  induction bs generalizing t k with
  | nil => exact h
  | cons b bs ih =>
    rw [List.length_cons] at hk hr
    have hb : Fin.ofNat 16 k ∈ e.regs := hr _ (by simp only [Fin.ofNat]; omega)
    exact ih (h.setReg hb b) (by omega) fun q hq => hr q (by omega)

/-! ### What a change under a frame says about its effects -/

theorem Frame.mem_regs (h : Frame e s t) {r : Reg} (hne : t.reg r ≠ s.reg r) : r ∈ e.regs :=
  Decidable.not_imp_comm.1 (h.1 r) hne

theorem Frame.i_of_ne (h : Frame e s t) (hne : t.i ≠ s.i) : e.i = true := by
  obtain ⟨-, hi, -⟩ := h
  simpa using mt hi hne

theorem Frame.dt_of_ne (h : Frame e s t) (hne : t.dt ≠ s.dt) : e.dt = true := by
  obtain ⟨-, -, hdt, -⟩ := h
  simpa using mt hdt hne

theorem Frame.st_of_ne (h : Frame e s t) (hne : t.st ≠ s.st) : e.st = true := by
  obtain ⟨-, -, -, hst, -⟩ := h
  simpa using mt hst hne

theorem Frame.stack_of_ne (h : Frame e s t) (hne : t.depth ≠ s.depth) : e.stack = true := by
  obtain ⟨-, -, -, -, hstack, -⟩ := h
  simpa using mt (fun he => (hstack he).2) hne

theorem Frame.fb_of_ne (h : Frame e s t) {c : Fin 64} {r : Fin 32} (hne : t.fb.pixel c r ≠ s.fb.pixel c r) :
    e.fb = true := by
  obtain ⟨-, -, -, -, -, -, -, hfb, -⟩ := h
  simpa using mt (fun he => hfb he c r) hne

theorem Frame.fault_eq (h : Frame e s t) : t.fault = s.fault := by
  obtain ⟨-, -, -, -, -, -, -, -, hf, -⟩ := h
  exact hf

/-! ### The rows that can fault or wait -/

theorem execCall_cases (nnn : Addr12) (s : State) :
    (∃ h : s.depth.val < 16, execCall nnn s = .next ({ s with
      stack := s.stack.set s.depth.val s.nextPc
      depth := ⟨s.depth.val + 1, by omega⟩ }.setPc (zextAddr nnn))) ∨
    (s.depth.val = 16 ∧ execCall nnn s = .next (s.raise .stackOverflow)) := by
  obtain ⟨h, hp⟩ | ⟨h, hp⟩ := s.push_cases s.nextPc
  · exact .inl ⟨h, by rw [execCall, hp]; rfl⟩
  · exact .inr ⟨h, by rw [execCall, hp]; rfl⟩

theorem execRet_cases (s : State) :
    (∃ h : 0 < s.depth.val, execRet s = .next ({ s with
      depth := ⟨s.depth.val - 1, by omega⟩ }.setPc (s.stack[s.depth.val - 1]'(by omega)))) ∨
    (s.depth.val = 0 ∧ execRet s = .next (s.raise .stackUnderflow)) := by
  obtain ⟨h, hp⟩ | ⟨h, hp⟩ := s.pop_cases
  · exact .inl ⟨h, by rw [execRet, hp]; rfl⟩
  · exact .inr ⟨h, by rw [execRet, hp]; rfl⟩

theorem execDrw_cases (x y : Reg) (n : Nibble) (s : State) :
    ((n.toNat = 0 ∨ s.i.toNat + n.toNat ≤ 0x1000) ∧ execDrw x y n s =
      .next (s.showSprite (s.fb.draw (s.reg x).toNat (s.reg y).toNat
        ((List.range n.toNat).map fun k => s.mem.byte (s.i.toNat + k)))).advance) ∨
    (0 < n.toNat ∧ 0x1000 < s.i.toNat + n.toNat ∧ execDrw x y n s = .next (s.raise .dataOutOfRange)) := by
  obtain ⟨h, hr⟩ | ⟨h, h', hr⟩ := s.readAtI_cases n.toNat
  · exact .inl ⟨h, by rw [execDrw, hr]; rfl⟩
  · exact .inr ⟨h, h', by rw [execDrw, hr]; rfl⟩

theorem execLdB_cases (x : Reg) (s : State) :
    (s.i.toNat + 3 ≤ 0x1000 ∧ execLdB x s =
      .next (s.setMem (s.mem.setBytes s.i.toNat (bcdBytes (s.reg x)))).advance) ∨
    (0x1000 < s.i.toNat + 3 ∧ execLdB x s = .next (s.raise .dataOutOfRange)) := by
  have hlen : (bcdBytes (s.reg x)).length = 3 := rfl
  obtain ⟨h, hw⟩ | ⟨_, h, hw⟩ := s.writeAtI_cases (bcdBytes (s.reg x))
  · exact .inl ⟨by omega, by rw [execLdB, hw]; rfl⟩
  · exact .inr ⟨by omega, by rw [execLdB, hw]; rfl⟩

theorem execStoreRegs_cases (x : Reg) (s : State) :
    (s.i.toNat + (x.val + 1) ≤ 0x1000 ∧ execStoreRegs x s =
      .next (s.setMem (s.mem.setBytes s.i.toNat (s.regsUpTo x))).advance) ∨
    (0x1000 < s.i.toNat + (x.val + 1) ∧ execStoreRegs x s = .next (s.raise .dataOutOfRange)) := by
  have hlen := s.regsUpTo_length x
  obtain ⟨h, hw⟩ | ⟨_, h, hw⟩ := s.writeAtI_cases (s.regsUpTo x)
  · exact .inl ⟨by omega, by rw [execStoreRegs, hw]; rfl⟩
  · exact .inr ⟨by omega, by rw [execStoreRegs, hw]; rfl⟩

theorem execLoadRegs_cases (x : Reg) (s : State) :
    (s.i.toNat + (x.val + 1) ≤ 0x1000 ∧ execLoadRegs x s =
      .next (s.setRegs 0 ((List.range (x.val + 1)).map fun k => s.mem.byte (s.i.toNat + k))).advance) ∨
    (0x1000 < s.i.toNat + (x.val + 1) ∧ execLoadRegs x s = .next (s.raise .dataOutOfRange)) := by
  obtain ⟨h, hr⟩ | ⟨_, h, hr⟩ := s.readAtI_cases (x.val + 1)
  · exact .inl ⟨by omega, by rw [execLoadRegs, hr]; rfl⟩
  · exact .inr ⟨h, by rw [execLoadRegs, hr]; rfl⟩

theorem execLdVxK_cases (x : Reg) (s : State) :
    (s.key = none ∧ execLdVxK x s = .next (s.setOut Outputs.waiting)) ∨
    (∃ key, s.key = some key ∧ execLdVxK x s = .next ((s.setReg x key).setOut Outputs.keyTaken).advance) := by
  cases hk : s.key with
  | none => exact .inl ⟨rfl, by rw [execLdVxK, hk]⟩
  | some key => exact .inr ⟨key, rfl, by rw [execLdVxK, hk]⟩

@[simp] theorem State.setRegs_pc (s : State) (k : Nat) (bs : List Byte) : (s.setRegs k bs).pc = s.pc := by
  rw [State.setRegs_eq]

@[simp] theorem State.setRegs_stack (s : State) (k : Nat) (bs : List Byte) : (s.setRegs k bs).stack = s.stack := by
  rw [State.setRegs_eq]

@[simp] theorem State.setRegs_mem (s : State) (k : Nat) (bs : List Byte) : (s.setRegs k bs).mem = s.mem := by
  rw [State.setRegs_eq]

/-! ### What a completed instruction has done -/

/-- Where an instruction can leave PC (R80 to R87; 43_keys_timers.md R113 for `stay`). -/
inductive PcTarget (s : State) : Word → Prop
  | stay : PcTarget s s.pc
  | next : PcTarget s (s.pc + 2#16)
  | skip : PcTarget s (s.pc + 4#16)
  | jump (nnn : Addr12) (b : Byte) : PcTarget s (zextAddr nnn + zextByte b)
  | back (k : Fin 16) : PcTarget s s.stack[k]

theorem PcTarget.address (s : State) (nnn : Addr12) : PcTarget s (zextAddr nnn) := by
  simpa [zextByte] using PcTarget.jump (s := s) nnn 0#8

theorem PcTarget.skipIf (s : State) (c : Bool) : PcTarget s (s.skipIf c).pc := by
  rw [State.skipIf_eq]
  cases c
  · exact .next
  · exact .skip

/-- All that an instruction that raised no fault can have done: its frame, where PC went, CALL's push of the address of
the next instruction, and the bytes stored, all of which exist. -/
structure Completed (i : Instr) (s t : State) : Prop where
  frame : Frame i.effects s t
  pc : PcTarget s t.pc
  stack : t.stack = s.stack ∨
    (∃ nnn, i = .call nnn) ∧ ∃ k, ∃ h : k < 16, t.stack = s.stack.set k (s.pc + 2#16)
  mem : t.mem = s.mem ∨
    ∃ bs : List Byte, i.Stores bs.length ∧ s.i.toNat + bs.length ≤ 0x1000 ∧ t.mem = s.mem.setBytes s.i.toNat bs

/-- What `exec` can do: raise a fault, which is never the fetch's (R131), or complete. -/
def Ran (i : Instr) (s t : State) : Prop :=
  (∃ f, f ≠ .fetchOutOfRange ∧ t = s.raise f) ∨ Completed i s t

theorem Ran.raise {i : Instr} (f : Fault) (hf : f ≠ .fetchOutOfRange) : Ran i s (s.raise f) := .inl ⟨f, hf, rfl⟩

/-- The rows that touch neither a stack slot nor memory. -/
theorem Ran.of_frame {i : Instr} (hf : Frame i.effects s t) (hp : PcTarget s t.pc) (hs : t.stack = s.stack := by rfl)
    (hm : t.mem = s.mem := by rfl) : Ran i s t :=
  .inr ⟨hf, hp, .inl hs, .inl hm⟩

/-- One arm per shape of row: `Frame`'s rules follow the row's operations, and a row that can fault splits on whether
it did. -/
theorem exec_ran {i : Instr} (h : exec i s = .next t) : Ran i s t := by
  have one {x : Reg} : x ∈ [x] := List.mem_singleton.2 rfl
  cases i with
  | cls => cases h; exact .of_frame (.setPc (.setFb (.refl _ _) rfl _) _) .next
  | ret =>
    obtain ⟨hd, e⟩ | ⟨-, e⟩ := execRet_cases s <;> cases e.symm.trans h
    · exact .of_frame (.setPc (.setStack (.refl _ _) rfl _ _) _) (.back ⟨s.depth.val - 1, by omega⟩)
    · exact .raise _ (by decide)
  | sys => cases h; exact .of_frame (.setPc (.setOut (.refl _ _) rfl _) _) .next
  | jp => cases h; exact .of_frame (.setPc (.refl _ _) _) (.address _ _)
  | call nnn =>
    obtain ⟨hd, e⟩ | ⟨-, e⟩ := execCall_cases nnn s <;> cases e.symm.trans h
    · exact .inr ⟨.setPc (.setStack (.refl _ _) rfl _ _) _, .address _ _, .inr ⟨⟨_, rfl⟩, _, hd, rfl⟩, .inl rfl⟩
    · exact .raise _ (by decide)
  | seByte | sneByte | seReg | sneReg | sknp =>
    cases h; exact .of_frame (.setPc (.refl _ _) _) (.skipIf _ _)
  | skp => cases h; exact .of_frame (.setPc (.refl _ _) _) .next
  | jpV0 => cases h; exact .of_frame (.setPc (.refl _ _) _) (.jump _ _)
  | ldByte | addByte | ldReg | orReg | andReg | xorReg | rnd | ldVxDt =>
    cases h; exact .of_frame (.setPc (.setReg (.refl _ _) one _) _) .next
  | addReg | subReg | shr | subnReg | shl =>
    cases h
    exact .of_frame (.setPc (.setReg (.setReg (.refl _ _) (by simp [Instr.effects, flagReg]) _)
      (List.mem_cons_self ..) _) _) .next
  | ldI | addIVx | ldF => cases h; exact .of_frame (.setPc (.setI (.refl _ _) rfl _) _) .next
  | drw x y n =>
    obtain ⟨-, e⟩ | ⟨-, -, e⟩ := execDrw_cases x y n s <;> cases e.symm.trans h
    · exact .of_frame (.setPc (.setReg (.setFb (.refl _ _) rfl _) one _) _) .next
    · exact .raise _ (by decide)
  | ldVxK x =>
    obtain ⟨-, e⟩ | ⟨_, -, e⟩ := execLdVxK_cases x s <;> cases e.symm.trans h
    · exact .of_frame (.setOut (.refl _ _) rfl _) .stay
    · exact .of_frame (.setPc (.setOut (.setReg (.refl _ _) one _) rfl _) _) .next
  | ldDtVx => cases h; exact .of_frame (.setPc (.setDt (.refl _ _) rfl _) _) .next
  | ldStVx => cases h; exact .of_frame (.setPc (.setSt (.refl _ _) rfl _) _) .next
  | ldB x =>
    obtain ⟨hs, e⟩ | ⟨-, e⟩ := execLdB_cases x s <;> cases e.symm.trans h
    · exact .inr ⟨.setPc (.setBytes (.refl _ _) rfl _ _) _, .next, .inl rfl,
        .inr ⟨bcdBytes (s.reg x), .inl ⟨x, rfl, rfl⟩, hs, rfl⟩⟩
    · exact .raise _ (by decide)
  | storeRegs x =>
    obtain ⟨hs, e⟩ | ⟨-, e⟩ := execStoreRegs_cases x s <;> cases e.symm.trans h
    · have hlen := s.regsUpTo_length x
      exact .inr ⟨.setPc (.setBytes (.refl _ _) rfl _ _) _, .next, .inl rfl,
        .inr ⟨_, .inr ⟨x, rfl, hlen⟩, by omega, rfl⟩⟩
    · exact .raise _ (by decide)
  | loadRegs x =>
    obtain ⟨-, e⟩ | ⟨-, e⟩ := execLoadRegs_cases x s <;> cases e.symm.trans h
    · refine .of_frame (.setPc (.setRegs (.refl _ _) (by simp) fun q hq => ?_) _) ?_ (by simp) (by simp)
      · rw [Instr.mem_effects_regs]
        rw [List.length_map, List.length_range] at hq
        exact decide_eq_true (by omega)
      · rw [State.advance_eq, State.setPc_pc, State.setRegs_pc]
        exact .next
    · exact .raise _ (by decide)

end Sys2Proof.Machine
end

section
/-! PROOFS. Everything a step can do, as a relation between the state before and the state after, with one constructor
per kind of event and its outcome (00_scope.md R7; 30_encoding.md R64; 60_exceptions.md R132, R137). -/

namespace Sys2Proof.Machine

variable {s t : State}

/-- The step relation. A Step event is frozen, faults in the fetch, meets an unrecognized word, or runs an instruction;
a Load or a Tick acts, or is ignored. -/
inductive Transition (s : State) : State → Prop
  | frozen {f : FaultRecord} (hn : s.stepIsNext = true) (hf : s.fault = some f) :
      Transition s (s.setOut Outputs.quiet).consume
  | fetchFault (hr : s.ready) (hpc : 0xFFF ≤ s.pc.toNat) : Transition s (s.beginStep.raise .fetchOutOfRange).consume
  | unrecognized (hr : s.ready) (hpc : s.pc.toNat < 0xFFF) {op : Word} {e : Reject} (hop : s.fetch = .ok op)
      (hd : decode op = .error e) : Transition s (s.beginStep.unrecognized op).consume
  | ran (hr : s.ready) (hpc : s.pc.toNat < 0xFFF) {i : Instr} {u : State} (hi : s.current = some i)
      (hu : Ran i s.beginStep u) : Transition s u.consume
  | reset {es : List HostEvent} (hh : s.host = .reset :: es) : Transition s { s with host := es }.resetEvent
  | loaded (image : List Byte) {es : List HostEvent} (hh : s.host = .load image :: es) (hs : s.started = false)
      (hf : s.fault = none) : Transition s ({ s with host := es }.setMem
        (s.mem.setBytes Config.programBase (image.take Config.maxImage)))
  | ticked {es : List HostEvent} (hh : s.host = .tick :: es) (hf : s.fault = none) :
      Transition s (({ s with host := es }.setDt (countDown s.dt)).setSt (countDown s.st))
  | ignored {e : HostEvent} {es : List HostEvent} (hh : s.host = e :: es) (he : e = .tick ∨ ∃ image, e = .load image)
      (hf : s.started = true ∨ s.fault ≠ none) : Transition s { s with host := es }

theorem State.loadEvent_cases (s : State) (image : List Byte) :
    ((s.started = true ∨ s.fault ≠ none) ∧ s.loadEvent image = s) ∨
    (s.started = false ∧ s.fault = none ∧ s.loadEvent image =
      s.setMem (s.mem.setBytes Config.programBase (image.take Config.maxImage))) := by
  by_cases h : (s.started || s.fault.isSome) = true
  · exact .inl ⟨by simpa [Option.isSome_iff_ne_none] using h, by rw [State.loadEvent, if_pos h]⟩
  · have h' : s.started = false ∧ s.fault = none := by simpa using h
    exact .inr ⟨h'.1, h'.2, by rw [State.loadEvent, if_neg h]⟩

theorem State.tickEvent_cases (s : State) :
    (s.fault ≠ none ∧ s.tickEvent = s) ∨
    (s.fault = none ∧ s.tickEvent = (s.setDt (countDown s.dt)).setSt (countDown s.st)) := by
  cases h : s.fault with
  | some f => exact .inl ⟨Option.some_ne_none f, by simp [State.tickEvent, h]⟩
  | none => exact .inr ⟨rfl, by simp [State.tickEvent, h]⟩

theorem State.current_eq_some {op : Word} {i : Instr} (hop : s.fetch = .ok op) (hd : decode op = .ok i) :
    s.current = some i := by
  simp [State.current, hop, hd]

theorem State.pc_lt_of_fetch {op : Word} (hop : s.fetch = .ok op) : s.pc.toNat < 0xFFF := by
  obtain ⟨h, -⟩ | ⟨-, h⟩ := s.fetch_cases
  · exact h
  · cases h.symm.trans hop

theorem State.le_pc_of_fetch {f : Fault} (hf : s.fetch = .error f) : 0xFFF ≤ s.pc.toNat := by
  obtain ⟨-, h⟩ | ⟨h, -⟩ := s.fetch_cases
  · cases h.symm.trans hf
  · exact h

theorem stepEvent_transition (hn : s.stepIsNext = true) (h : s.stepEvent = .next t) : Transition s t := by
  obtain ⟨hf, e⟩ | ⟨hf, hop, e⟩ | ⟨op, i, hf, hop, hd, e⟩ | ⟨op, r, hf, hop, hd, e⟩ := s.stepEvent_cases
  · obtain ⟨f, hf⟩ := Option.isSome_iff_exists.1 hf
    cases e.symm.trans h
    exact .frozen hn hf
  · cases e.symm.trans h
    exact .fetchFault ⟨hf, hn⟩ (State.le_pc_of_fetch hop)
  · obtain ⟨u, hu⟩ := exec_next i s.beginStep
    rw [hu, mapNext_next] at e
    cases e.symm.trans h
    exact .ran ⟨hf, hn⟩ (State.pc_lt_of_fetch hop) (State.current_eq_some hop hd) (exec_ran hu)
  · cases e.symm.trans h
    exact .unrecognized ⟨hf, hn⟩ (State.pc_lt_of_fetch hop) hop hd

theorem step_transition (h : step s = .next t) : Transition s t := by
  obtain ⟨hn, e⟩ | ⟨es, hh, e⟩ | ⟨image, es, hh, e⟩ | ⟨es, hh, e⟩ := step_cases s
  · exact stepEvent_transition hn (e.symm.trans h)
  · cases e.symm.trans h
    exact .reset hh
  · cases e.symm.trans h
    obtain ⟨hf, e⟩ | ⟨hs, hf, e⟩ := State.loadEvent_cases { s with host := es } image <;> rw [e]
    · exact .ignored hh (.inr ⟨image, rfl⟩) hf
    · exact .loaded image hh hs hf
  · cases e.symm.trans h
    obtain ⟨hf, e⟩ | ⟨hf, e⟩ := State.tickEvent_cases { s with host := es } <;> rw [e]
    · exact .ignored hh (.inl rfl) (.inr hf)
    · exact .ticked hh hf

/-- A Step that is not frozen is steps 2 to 8 of R64. -/
theorem step_of_ready (h : s.ready) : step s = mapNext State.consume s.beginStep.fetchAndExec := by
  obtain ⟨hf, hn⟩ := h
  obtain ⟨-, e⟩ | ⟨es, hh, -⟩ | ⟨image, es, hh, -⟩ | ⟨es, hh, -⟩ := step_cases s
  · rw [e, State.stepEvent, hf]; rfl
  all_goals simp [State.stepIsNext, hh] at hn

end Sys2Proof.Machine
end

section
/-! PROOFS. The invariant (10_state.md R22, R26, R28, R30): each piece of it, from the inversion of the instructions, then
the step lemma. -/

namespace Sys2Proof.Machine

variable {s t : State}

theorem PcTarget.toNat_le {w : Word} (h : PcTarget s w) (hpc : s.pc.toNat < 0xFFF)
    (hk : ∀ k : Fin 16, (s.stack[k]).toNat ≤ 0x1000) : w.toNat ≤ 0x10FE := by
  cases h with
  | stay => omega
  | next => bv_omega
  | skip => bv_omega
  | jump nnn b =>
    have := nnn.isLt
    have := b.isLt
    rw [BitVec.toNat_add, zextAddr_toNat, zextByte_toNat]
    omega
  | back k => exact (hk k).trans (by decide)

theorem Completed.slot_le {i : Instr} (h : Completed i s t) (hpc : s.pc.toNat < 0xFFF)
    (hk : ∀ k : Fin 16, (s.stack[k]).toNat ≤ 0x1000) (k : Fin 16) : (t.stack[k]).toNat ≤ 0x1000 := by
  obtain e | ⟨-, j, hj, e⟩ := h.stack
  · rw [e]; exact hk k
  · have hw : (s.pc + 2#16).toNat ≤ 0x1000 := by bv_omega
    rw [e, Fin.getElem_fin, Vector.getElem_set]
    split
    · exact hw
    · exact hk k

theorem Completed.mem_wf {i : Instr} (h : Completed i s t) (hm : s.mem.wf = true) : t.mem.wf = true := by
  obtain e | ⟨bs, -, hle, e⟩ := h.mem
  · rw [e]; exact hm
  · rw [e]; exact Memory.setBytes_wf hm hle

theorem Completed.inv {i : Instr} (h : Completed i s t) (hs : s.Inv) (hf : s.fault = none)
    (hpc : s.pc.toNat < 0xFFF) : t.Inv := by
  obtain ⟨hm, -, hk, -⟩ := hs
  refine ⟨h.mem_wf hm, h.pc.toNat_le hpc hk, h.slot_le hpc hk, fun f e => ?_⟩
  rw [h.frame.fault_eq, hf] at e
  cases e

/-- A fault of a Step keeps the invariant when it is the fetch's exactly where no word can be fetched. -/
theorem State.Inv.raise {f : Fault} (hs : s.Inv) (hst : s.started = true)
    (hf : f = .fetchOutOfRange ↔ 0xFFF ≤ s.pc.toNat) : (s.raise f).Inv := by
  obtain ⟨hm, hpc, hk, -⟩ := hs
  refine ⟨hm, hpc, hk, fun g e => ?_⟩
  cases e
  exact ⟨rfl, hst, hf⟩

/-- What Load places lies below 0x1000 (20_memory.md R53). -/
theorem image_fits (image : List Byte) :
    Config.programBase + (image.take Config.maxImage).length ≤ Config.memSize :=
  Nat.add_le_add_left (List.length_take_le _ image) _

/-- Where no fault is latched STARTED and the ports are free. -/
theorem State.Inv.beginStep (hs : s.Inv) (hf : s.fault = none) : s.beginStep.Inv := by
  obtain ⟨hm, hpc, hk, -⟩ := hs
  exact ⟨hm, hpc, hk, fun f e => by cases hf.symm.trans e⟩

/-- Settles O15: nothing is listed in memory, PC is 0x200, every slot is zero, and no fault is latched. -/
theorem resetHasInvariant : Obligations.ResetHasInvariant := by
  intro font
  have hpc : Config.resetPc.toNat ≤ 0x10FE := by decide
  refine ⟨Memory.reset_wf font, hpc, fun k => ?_, fun f e => by cases e⟩
  simp [State.resetWith]

/-- Settles O14, by the kinds of transition. A frozen Step and an ignored event change nothing the invariant speaks of; a
fault latches this PC; every instruction, CALL's push and the jumps included, keeps its bounds. -/
theorem invariantKept : Obligations.InvariantKept := by
  intro s t hs h
  have ⟨hm, hpc, hk, _⟩ := hs
  cases step_transition h with
  | frozen | ignored => exact hs
  | fetchFault hr hpc => exact (hs.beginStep hr.1).raise rfl (iff_of_true rfl hpc)
  | unrecognized hr hlt =>
    have hw : (s.pc + 2#16).toNat ≤ 0x10FE := PcTarget.next.toNat_le hlt hk
    exact ⟨hm, hw, hk, fun f e => by cases hr.1.symm.trans e⟩
  | ran hr hlt _ hu =>
    obtain ⟨f, hne, rfl⟩ | hc := hu
    · exact (hs.beginStep hr.1).raise rfl (iff_of_false hne (Nat.not_le.2 hlt))
    · exact hc.inv (hs.beginStep hr.1) hr.1 hlt
  | reset => exact resetHasInvariant s.mem.font
  | loaded image _ _ hf =>
    exact ⟨Memory.setBytes_wf hm (image_fits image), hpc, hk, fun f e => by cases hf.symm.trans e⟩
  | ticked => exact hs

end Sys2Proof.Machine
end

section
/-! PROOFS. The fetch, the freeze while a fault is latched, and the state after Reset (20_memory.md R44;
60_exceptions.md R132, R134; 10_state.md R34). -/

namespace Sys2Proof.Machine

variable {s t : State}

/-- Where both bytes exist the opcode at PC is their big-endian value (R44). -/
theorem State.opcodeAtPc_opOfBytes (h : s.pc.toNat < 0xFFF) :
    s.opcodeAtPc (opOfBytes (s.mem.byte s.pc.toNat) (s.mem.byte (s.pc.toNat + 1))) :=
  ⟨_, _, Memory.read_eq (by omega), Memory.read_eq (by omega), opOfBytes_toNat _ _⟩

/-- Settles O9, from everything a fetch can do; the Step then is fault entry with STARTED set. -/
theorem fetchIsBigEndianOrFaults : Obligations.FetchIsBigEndianOrFaults := by
  intro s
  obtain ⟨hlt, e⟩ | ⟨hle, e⟩ := s.fetch_cases
  · exact ⟨fun _ => ⟨_, e, State.opcodeAtPc_opOfBytes hlt⟩, fun h => absurd hlt (Nat.not_lt.2 h)⟩
  · refine ⟨fun h => absurd h (Nat.not_lt.2 hle), fun _ => ⟨e, fun hr => ?_⟩⟩
    rw [step_of_ready hr, State.fetchAndExec, State.beginStep_fetch, e]
    rfl

/-- Settles O11: of the transitions only a frozen Step, a Reset and an ignored event start with a fault latched. -/
theorem faultFreezesUntilReset : Obligations.FaultFreezesUntilReset := by
  intro s f hf
  obtain ⟨t, h⟩ := everyEventCompletes s
  refine ⟨t, h, ?_⟩
  cases step_transition h with
  | frozen hn => exact ⟨fun _ => rfl, fun _ => rfl, fun es hh => by simp [State.stepIsNext, hh] at hn⟩
  | reset hh => exact ⟨fun hne => absurd hh (hne _), by simp [State.stepIsNext, hh], fun _ _ => ⟨rfl, rfl⟩⟩
  | ignored hh he =>
    obtain rfl | ⟨image, rfl⟩ := he
    all_goals exact ⟨fun _ => rfl, by simp [State.stepIsNext, hh], by simp [hh]⟩
  | fetchFault hr | unrecognized hr | ran hr => cases hr.1.symm.trans hf
  | loaded _ _ _ hn | ticked _ hn => cases hn.symm.trans hf

/-- Settles O52: no byte is listed, so each address reads as its reset contents. -/
theorem resetMemory : Obligations.ResetMemory := by
  intro font a
  have hbyte : (State.resetWith font).mem.byte a = (Memory.reset font).initial a := Memory.reset_byte font
  refine ⟨fun h => ?_, fun h h' => ?_, Memory.read_none⟩
  · rw [Memory.read_eq (by omega), hbyte, Memory.initial, dif_pos h]; rfl
  · rw [Memory.read_eq h', hbyte, Memory.initial, dif_neg (by omega)]

/-- Settles O53: the registers, the slots and the framebuffer at each index; the other fields as they are written. -/
theorem resetRegisters : Obligations.ResetRegisters := by
  intro font
  refine ⟨fun r => ?_, rfl, rfl, rfl, rfl, rfl, fun k => ?_, Framebuffer.pixel_clear, rfl, rfl⟩
  · simp [State.reg, State.resetWith]
  · simp [State.resetWith]

end Sys2Proof.Machine
end

section
/-! PROOFS. Who writes what (10_state.md R20 to R33): only a Reset, a Load, a Tick or an instruction whose effects name it
changes a piece of state. -/

namespace Sys2Proof.Machine

variable {s t : State}

/-- A fault of an instruction changes no data, so a change comes from an instruction that completed. -/
theorem Ran.completed_of_ne {α : Type} {i : Instr} (h : Ran i s t) (g : State → α) (hg : ∀ f, g (s.raise f) = g s)
    (hne : g t ≠ g s) : Completed i s t := by
  obtain ⟨f, -, rfl⟩ | hc := h
  · exact absurd (hg f) hne
  · exact hc

/-- Settles O18: CLS and DRW alone have the framebuffer among their effects. -/
theorem framebufferWriters : Obligations.FramebufferWriters := by
  intro s t c r h hne
  cases step_transition h with
  | reset hh => exact .inl ⟨_, hh⟩
  | ran hr _ hi hu =>
    have hc := hu.completed_of_ne (·.fb.pixel c r) (fun _ => rfl) hne
    obtain rfl | ⟨x, y, n, rfl⟩ := Instr.effects_fb (hc.frame.fb_of_ne hne)
    · exact .inr ⟨hr, .inl hi⟩
    · exact .inr ⟨hr, .inr ⟨x, y, n, hi⟩⟩
  | _ => exact absurd rfl hne

/-- Settles O20: the registers among an instruction's effects are those it may write. -/
theorem registerWriters : Obligations.RegisterWriters := by
  intro s t r h hne
  cases step_transition h with
  | reset hh => exact .inl ⟨_, hh⟩
  | ran hr _ hi hu =>
    have hc := hu.completed_of_ne (·.reg r) (fun _ => rfl) hne
    exact .inr ⟨hr, _, hi, (Instr.mem_effects_regs _ _).1 (hc.frame.mem_regs hne)⟩
  | _ => exact absurd rfl hne

/-- Settles O21: three rows have I among their effects. -/
theorem indexRegisterWriters : Obligations.IndexRegisterWriters := by
  intro s t h hne
  cases step_transition h with
  | reset hh => exact .inl ⟨_, hh⟩
  | ran hr _ hi hu =>
    have hc := hu.completed_of_ne (·.i) (fun _ => rfl) hne
    obtain ⟨nnn, rfl⟩ | ⟨x, rfl⟩ | ⟨x, rfl⟩ := Instr.effects_i (hc.frame.i_of_ne hne)
    · exact .inr ⟨hr, .inl ⟨nnn, hi⟩⟩
    · exact .inr ⟨hr, .inr (.inl ⟨x, hi⟩)⟩
    · exact .inr ⟨hr, .inr (.inr ⟨x, hi⟩)⟩
  | _ => exact absurd rfl hne

/-- Settles O22: beside Reset and Tick, one row has each timer among its effects. -/
theorem timerWriters : Obligations.TimerWriters := by
  intro s t h
  cases step_transition h with
  | reset hh => exact ⟨fun _ => .inl ⟨_, hh⟩, fun _ => .inl ⟨_, hh⟩⟩
  | ticked hh => exact ⟨fun _ => .inr (.inl ⟨_, hh⟩), fun _ => .inr (.inl ⟨_, hh⟩)⟩
  | ran hr _ hi hu =>
    refine ⟨fun hne => ?_, fun hne => ?_⟩
    · have hc := hu.completed_of_ne (·.dt) (fun _ => rfl) hne
      obtain ⟨x, rfl⟩ := Instr.effects_dt (hc.frame.dt_of_ne hne)
      exact .inr (.inr ⟨hr, x, hi⟩)
    · have hc := hu.completed_of_ne (·.st) (fun _ => rfl) hne
      obtain ⟨x, rfl⟩ := Instr.effects_st (hc.frame.st_of_ne hne)
      exact .inr (.inr ⟨hr, x, hi⟩)
  | _ => exact ⟨fun hne => absurd rfl hne, fun hne => absurd rfl hne⟩

/-- Settles O23: the slots change by CALL's push alone; SP is the depth, an effect of CALL and RET. -/
theorem stackWriters : Obligations.StackWriters := by
  intro s t h
  cases step_transition h with
  | reset hh => exact ⟨fun _ => .inl ⟨_, hh⟩, fun _ => .inl ⟨_, hh⟩⟩
  | ran hr _ hi hu =>
    refine ⟨fun hne => ?_, fun hne => ?_⟩
    · have hc := hu.completed_of_ne (·.stack) (fun _ => rfl) hne
      obtain ⟨⟨nnn, rfl⟩, -⟩ := hc.stack.resolve_left hne
      exact .inr ⟨hr, nnn, hi⟩
    · have hc := hu.completed_of_ne State.sp (fun _ => rfl) hne
      have hd := ne_of_apply_ne (fun d : Fin 17 => (d.val : Int) - 1) hne
      obtain ⟨nnn, rfl⟩ | rfl := Instr.effects_stack (hc.frame.stack_of_ne hd)
      · exact .inr ⟨hr, .inl ⟨nnn, hi⟩⟩
      · exact .inr ⟨hr, .inr hi⟩
  | _ => exact ⟨fun hne => absurd rfl hne, fun hne => absurd rfl hne⟩

theorem Memory.span_of_read_ne {m : Memory} {a b : Nat} {vs : List Byte} (h : (m.setBytes b vs).read a ≠ m.read a) :
    b ≤ a ∧ a < b + vs.length := by
  by_contra hout
  exact h (by rw [Memory.read, Memory.read, Memory.byte_setBytes_outside hout])

/-- Settles O19: every change of memory is one write of consecutive bytes, by a Load or by LD B or LD [I],Vx, and a byte
outside the span of a write stays. -/
theorem memoryWriters : Obligations.MemoryWriters := by
  intro s t a h hne
  cases step_transition h with
  | reset hh => exact .inl ⟨_, hh⟩
  | loaded image hh hs hf =>
    obtain ⟨hle, hlt⟩ := Memory.span_of_read_ne hne
    rw [List.length_take, Nat.min_comm] at hlt
    exact .inr (.inl ⟨image, _, hh, hs, hf, hle, hlt⟩)
  | ran hr _ hi hu =>
    have hc := hu.completed_of_ne (·.mem.read a) (fun _ => rfl) hne
    obtain ⟨bs, hbs, -, e⟩ := hc.mem.resolve_left fun e => hne (congrArg (·.read a) e)
    rw [State.consume_mem, e] at hne
    obtain ⟨hle, hlt⟩ := Memory.span_of_read_ne hne
    obtain ⟨x, rfl, hn⟩ | ⟨x, rfl, hn⟩ := hbs
    · exact .inr (.inr (.inl ⟨hr, x, hi, hle, hn ▸ hlt⟩))
    · exact .inr (.inr (.inr ⟨hr, x, hi, hle, by rw [hn] at hlt; exact Nat.le_of_lt_succ hlt⟩))
  | _ => exact absurd rfl hne

end Sys2Proof.Machine
end

section
/-! PROOFS. Memory as Load, LD [I],Vx and the fetch see it (20_memory.md R44, R51, R53, R54). -/

namespace Sys2Proof.Machine

variable {s t : State}

/-! ### A Step and a Load, by what comes next -/

theorem step_eq_stepEvent (hr : s.ready) : step s = s.stepEvent := by
  obtain ⟨hf, -⟩ := id hr
  rw [step_of_ready hr, State.stepEvent, hf]
  rfl

/-- Where an instruction is fetched the Step is that instruction's meaning (R64). -/
theorem step_of_current {i : Instr} (hr : s.ready) (hi : s.current = some i) :
    step s = mapNext State.consume (exec i s.beginStep) := by
  rw [step_eq_stepEvent hr]
  obtain ⟨hf, -⟩ | ⟨-, hop, -⟩ | ⟨op, j, -, hop, hd, e⟩ | ⟨op, r, -, hop, hd, -⟩ := s.stepEvent_cases
  · simp [hr.1] at hf
  · simp [State.current, hop] at hi
  · cases (State.current_eq_some hop hd).symm.trans hi
    exact e
  · simp [State.current, hop, hd] at hi

theorem step_load {image : List Byte} {es : List HostEvent} (hh : s.host = .load image :: es) :
    step s = .next ({ s with host := es }.loadEvent image) := by
  rw [step, State.runEvent, hh]

/-! ### Bytes that have been written -/

theorem Memory.read_setBytes_inside {m : Memory} {a k : Nat} {vs : List Byte} (h : m.wf = true)
    (hs : a + vs.length ≤ Config.memSize) (hk : k < vs.length) : (m.setBytes a vs).read (a + k) = some vs[k] := by
  rw [Memory.read_eq (Nat.lt_of_lt_of_le (Nat.add_lt_add_left hk a) hs), Memory.byte_setBytes_inside h hs hk]

theorem Memory.read_setBytes_outside {m : Memory} {a b : Nat} {vs : List Byte} (h : ¬ (a ≤ b ∧ b < a + vs.length)) :
    (m.setBytes a vs).read b = m.read b :=
  by_contra fun hne => h (Memory.span_of_read_ne hne)

/-- Register `k` of V0 to Vx stands at I + k after the store (R124). -/
theorem State.byte_storedRegs {x k : Reg} (hm : s.mem.wf = true) (hs : s.i.toNat + x.val < 0x1000) (hk : k ≤ x) :
    (s.mem.setBytes s.i.toNat (s.regsUpTo x)).byte (s.i.toNat + k.val) = s.reg k := by
  have hlen := s.regsUpTo_length x
  have hspan : s.i.toNat + (s.regsUpTo x).length ≤ Config.memSize := by rw [hlen]; exact hs
  have hlt : k.val < (s.regsUpTo x).length := by rw [hlen]; exact Nat.lt_succ_of_le hk
  rw [Memory.byte_setBytes_inside hm hspan hlt, State.regsUpTo_getElem, Fin.ofNat_val_eq_self]

theorem State.fetch_of_lt (h : s.pc.toNat < 0xFFF) :
    s.fetch = .ok (opOfBytes (s.mem.byte s.pc.toNat) (s.mem.byte (s.pc.toNat + 1))) :=
  (s.fetch_cases.resolve_right fun hle => Nat.not_le.2 h hle.1).2

/-! ### The obligations -/

/-- Settles O51: the store goes to PC + 2 and beyond, where the next fetch finds V0 and V1. -/
theorem storeSeenByNextFetch : Obligations.StoreSeenByNextFetch := by
  intro s x hr hm hi hx hipc hs
  obtain ⟨-, e⟩ | ⟨hout, -⟩ := execStoreRegs_cases x s.beginStep
  · have hstep := step_of_current hr hi
    rw [exec, e, mapNext_next] at hstep
    have hpc : (s.pc + 2#16).toNat = s.i.toNat := by bv_omega
    have hlt : (s.pc + 2#16).toNat < 0xFFF := by omega
    have hhi : (s.mem.setBytes s.i.toNat (s.beginStep.regsUpTo x)).byte s.i.toNat = s.reg 0 :=
      State.byte_storedRegs (s := s.beginStep) (k := 0) hm hs (Fin.zero_le x)
    have hlo : (s.mem.setBytes s.i.toNat (s.beginStep.regsUpTo x)).byte (s.i.toNat + 1) = s.reg 1 :=
      State.byte_storedRegs (s := s.beginStep) (k := 1) hm hs hx
    refine ⟨_, hstep, rfl, hr.1, _, State.fetch_of_lt hlt, ?_⟩
    simp [opOfBytes_toNat, hpc, hhi, hlo]
  · exact absurd hout (Nat.not_lt.2 hs)

/-- Settles O56, by the two things a Load can do: the image's place ends below 0x1000, so all of it is written. -/
theorem loadTruncatesOrIsIgnored : Obligations.LoadTruncatesOrIsIgnored := by
  intro s image es hh
  refine ⟨_, step_load hh, ?_⟩
  obtain ⟨hno, e⟩ | ⟨hs, hf, e⟩ := State.loadEvent_cases { s with host := es } image <;> rw [e]
  · refine ⟨rfl, rfl, fun _ => rfl, fun _ hs hf => ?_⟩
    exact absurd hno (not_or.2 ⟨ne_true_of_eq_false hs, not_not.2 hf⟩)
  · refine ⟨rfl, Memory.setBytes_font, fun hno => ?_, fun hm _ _ => ⟨fun k hk hlt => ?_, fun a ha => ?_⟩⟩
    · exact absurd hno (not_or.2 ⟨ne_true_of_eq_false hs, not_not.2 hf⟩)
    · have hk' : k < (image.take Config.maxImage).length := by rw [List.length_take]; exact lt_min hlt hk
      rw [← List.getElem_take (h := hk')]
      exact Memory.read_setBytes_inside hm (image_fits image) hk'
    · rw [Nat.min_comm] at ha
      exact Memory.read_setBytes_outside (by rwa [List.length_take])

/-- Settles O55: a Load right after Reset is carried out (O56), the image fits, and beyond it memory is as Reset left it
(O52). -/
theorem loadPlacesImage : Obligations.LoadPlacesImage := by
  intro font image es hlen
  obtain ⟨t, hstep, -, -, -, hload⟩ :=
    loadTruncatesOrIsIgnored { State.resetWith font with host := .load image :: es } image es rfl
  obtain ⟨hin, hout⟩ := hload (Memory.reset_wf font) rfl rfl
  refine ⟨t, hstep, fun k hk => hin k hk (Nat.lt_of_lt_of_le hk hlen), fun a ha hlt => ?_⟩
  obtain ⟨-, hzero, -⟩ := resetMemory font a
  rw [hout a (by omega)]
  exact hzero (by omega) hlt

end Sys2Proof.Machine
end

section
/-! PROOFS. Which fault a Step latches (60_exceptions.md R131), as a function of the state before it. -/

namespace Sys2Proof

open Machine

variable {s : State} {i : Instr}

/-- The fault an instruction raises, if any (R131): at a data access that leaves memory, a CALL on a full stack, a RET
on an empty one. -/
def Instr.faultIn (s : State) : Instr → Option Fault
  | .drw _ _ n => if 0 < n.toNat ∧ 0x1000 ≤ s.i.toNat + n.toNat - 1 then some .dataOutOfRange else none
  | .ldB _ => if 0x1000 ≤ s.i.toNat + 2 then some .dataOutOfRange else none
  | .storeRegs x | .loadRegs x => if 0x1000 ≤ s.i.toNat + x.val then some .dataOutOfRange else none
  | .call _ => if s.sp = 15 then some .stackOverflow else none
  | .ret => if s.sp = -1 then some .stackUnderflow else none
  | _ => none

theorem Instr.faultIn_beginStep (s : State) (i : Instr) : i.faultIn s.beginStep = i.faultIn s := by
  cases i <;> rfl

theorem Instr.faultIn_ne_fetchOutOfRange : i.faultIn s ≠ some .fetchOutOfRange := by
  cases i <;> simp [faultIn]

theorem Instr.faultIn_dataOutOfRange (h : i.faultIn s = some .dataOutOfRange) :
    (∃ x y n, i = .drw x y n ∧ 0 < n.toNat ∧ 0x1000 ≤ s.i.toNat + n.toNat - 1) ∨
    (∃ x, i = .ldB x ∧ 0x1000 ≤ s.i.toNat + 2) ∨
    (∃ x, i = .storeRegs x ∧ 0x1000 ≤ s.i.toNat + x.val) ∨
    (∃ x, i = .loadRegs x ∧ 0x1000 ≤ s.i.toNat + x.val) := by
  cases i with
  | drw | ldB | storeRegs | loadRegs => simpa [faultIn] using h
  | call | ret => simp [faultIn] at h
  | _ => cases h

theorem Instr.faultIn_stackOverflow (h : i.faultIn s = some .stackOverflow) : (∃ nnn, i = .call nnn) ∧ s.sp = 15 := by
  cases i with
  | call => simpa [faultIn] using h
  | drw | ldB | storeRegs | loadRegs | ret => simp [faultIn] at h
  | _ => cases h

theorem Instr.faultIn_stackUnderflow (h : i.faultIn s = some .stackUnderflow) : i = .ret ∧ s.sp = -1 := by
  cases i with
  | ret => simpa [faultIn] using h
  | drw | ldB | storeRegs | loadRegs | call => simp [faultIn] at h
  | _ => cases h

end Sys2Proof

namespace Sys2Proof.Machine

variable {s t : State}

/-- The latch after an instruction that raised `f`, or that raised nothing (R132). -/
def State.latched (s : State) (f : Option Fault) : Option FaultRecord :=
  f.map fun cause => { cause := cause, pc := s.pc }

theorem State.latched_eq_some {f : Option Fault} {c : Fault} :
    s.latched f = some { cause := c, pc := s.pc } ↔ f = some c := by
  simp [State.latched]

theorem State.latched_pc {f : Option Fault} {r : FaultRecord} (h : s.latched f = some r) : r.pc = s.pc := by
  obtain ⟨c, -, rfl⟩ := Option.map_eq_some_iff.1 h
  rfl

/-- A row that raises `f` exactly where `c` holds, and else answers `u`, leaves the latch that `c` says. -/
theorem latched_of_cases {c : Prop} [Decidable c] {f : Fault} {u : State} {r : Result} (h : r = .next t)
    (hr : (¬ c ∧ r = .next u) ∨ (c ∧ r = .next (s.raise f))) (hu : u.fault = none) :
    t.fault = s.latched (if c then some f else none) := by
  obtain ⟨hc, e⟩ | ⟨hc, e⟩ := hr <;> cases e.symm.trans h
  · rw [if_neg hc]; exact hu
  · rw [if_pos hc]; rfl

theorem State.sp_eq_max : s.sp = 15 ↔ s.depth.val = 16 := by
  rw [State.sp]
  omega

theorem State.sp_eq_min : s.sp = -1 ↔ s.depth.val = 0 := by
  rw [State.sp]
  omega

/-- The rows that can raise a fault split on whether they did; no other row touches the latch. -/
theorem exec_fault {i : Instr} (hf : s.fault = none) (h : exec i s = .next t) : t.fault = s.latched (i.faultIn s) := by
  cases i with
  | ret =>
    obtain ⟨hd, e⟩ | ⟨hd, e⟩ := execRet_cases s
    · exact latched_of_cases h (.inl ⟨mt State.sp_eq_min.1 hd.ne', e⟩) hf
    · exact latched_of_cases h (.inr ⟨State.sp_eq_min.2 hd, e⟩) hf
  | call nnn =>
    obtain ⟨hd, e⟩ | ⟨hd, e⟩ := execCall_cases nnn s
    · exact latched_of_cases h (.inl ⟨mt State.sp_eq_max.1 hd.ne, e⟩) hf
    · exact latched_of_cases h (.inr ⟨State.sp_eq_max.2 hd, e⟩) hf
  | drw x y n =>
    refine latched_of_cases h ((execDrw_cases x y n s).imp (fun ⟨hs, e⟩ => ⟨by omega, e⟩)
      fun ⟨hn, hs, e⟩ => ⟨by omega, e⟩) ?_
    exact hf
  | ldB x =>
    refine latched_of_cases h ((execLdB_cases x s).imp (fun ⟨hs, e⟩ => ⟨by omega, e⟩)
      fun ⟨hs, e⟩ => ⟨by omega, e⟩) ?_
    exact hf
  | storeRegs x =>
    refine latched_of_cases h ((execStoreRegs_cases x s).imp (fun ⟨hs, e⟩ => ⟨by omega, e⟩)
      fun ⟨hs, e⟩ => ⟨by omega, e⟩) ?_
    exact hf
  | loadRegs x =>
    refine latched_of_cases h ((execLoadRegs_cases x s).imp (fun ⟨hs, e⟩ => ⟨by omega, e⟩)
      fun ⟨hs, e⟩ => ⟨by omega, e⟩) ?_
    rw [State.setRegs_eq]
    exact hf
  | ldVxK x => obtain ⟨-, e⟩ | ⟨_, -, e⟩ := execLdVxK_cases x s <;> cases e.symm.trans h <;> exact hf
  | _ => cases h; exact hf

/-- The fault a Step of an unfaulted state latches, if any: the fetch's, or the fetched instruction's own (R64, R131). -/
def State.nextFault (s : State) : Option Fault :=
  if 0xFFF ≤ s.pc.toNat then some .fetchOutOfRange else s.current.bind (·.faultIn s)

theorem State.nextFault_fetchOutOfRange : s.nextFault = some .fetchOutOfRange ↔ 0xFFF ≤ s.pc.toNat := by
  rw [State.nextFault]
  split
  · exact iff_of_true rfl ‹_›
  · refine iff_of_false (fun h => ?_) ‹_›
    obtain ⟨i, -, hi⟩ := Option.bind_eq_some_iff.1 h
    exact Instr.faultIn_ne_fetchOutOfRange hi

theorem State.pc_lt_of_current {i : Instr} (hi : s.current = some i) : s.pc.toNat < 0xFFF := by
  obtain ⟨h, -⟩ | ⟨-, h⟩ := s.fetch_cases
  · exact h
  · simp [State.current, h] at hi

/-- Every other fault is the fetched instruction's own. -/
theorem State.nextFault_eq_some {f : Fault} (hf : f ≠ .fetchOutOfRange) :
    s.nextFault = some f ↔ ∃ i, s.current = some i ∧ i.faultIn s = some f := by
  rw [State.nextFault]
  split
  · refine iff_of_false (fun h => hf (Option.some.inj h).symm) fun ⟨i, hi, _⟩ => ?_
    exact absurd (State.pc_lt_of_current hi) (Nat.not_lt.2 ‹_›)
  · exact Option.bind_eq_some_iff

theorem step_fault (hr : s.ready) (h : step s = .next t) : t.fault = s.latched s.nextFault := by
  have hstep := (step_eq_stepEvent hr).symm.trans h
  obtain ⟨hf, -⟩ | ⟨hf, hop, e⟩ | ⟨op, i, hf, hop, hd, e⟩ | ⟨op, r, hf, hop, hd, e⟩ := s.stepEvent_cases
  · simp [hr.1] at hf
  · cases e.symm.trans hstep
    rw [State.nextFault, if_pos (State.le_pc_of_fetch hop)]
    rfl
  · obtain ⟨u, hu⟩ := exec_next i s.beginStep
    rw [hu, mapNext_next] at e
    cases e.symm.trans hstep
    rw [State.nextFault, if_neg (Nat.not_le.2 (State.pc_lt_of_fetch hop)), State.current_eq_some hop hd]
    have hfault := exec_fault (s := s.beginStep) hf hu
    rwa [Instr.faultIn_beginStep] at hfault
  · cases e.symm.trans hstep
    have hnone : s.current = none := by simp [State.current, hop, hd]
    rw [State.nextFault, if_neg (Nat.not_le.2 (State.pc_lt_of_fetch hop)), hnone]
    exact hf

/-- Settles O13: the latch after a Step is the fault that `State.nextFault` names, and each cause is named under its own
condition only. -/
theorem faultsExactlyWhere : Obligations.FaultsExactlyWhere := by
  refine ⟨⟨rfl, rfl, rfl, rfl⟩, fun s hr => ?_⟩
  obtain ⟨t, h⟩ := everyEventCompletes s
  refine ⟨t, h, ?_⟩
  simp only [step_fault hr h, State.latched_eq_some]
  refine ⟨State.nextFault_fetchOutOfRange, (State.nextFault_eq_some (by decide)).trans ?_,
    (State.nextFault_eq_some (by decide)).trans ?_, (State.nextFault_eq_some (by decide)).trans ?_,
    fun f => State.latched_pc⟩
  · constructor
    · rintro ⟨i, hi, hd⟩
      obtain ⟨x, y, n, rfl, hn, hs⟩ | ⟨x, rfl, hs⟩ | ⟨x, rfl, hs⟩ | ⟨x, rfl, hs⟩ := Instr.faultIn_dataOutOfRange hd
      · exact .inl ⟨x, y, n, hi, hn, hs⟩
      · exact .inr (.inl ⟨x, hi, hs⟩)
      · exact .inr (.inr (.inl ⟨x, hi, hs⟩))
      · exact .inr (.inr (.inr ⟨x, hi, hs⟩))
    · rintro (⟨x, y, n, hi, hs⟩ | ⟨x, hi, hs⟩ | ⟨x, hi, hs⟩ | ⟨x, hi, hs⟩) <;> exact ⟨_, hi, if_pos hs⟩
  · constructor
    · rintro ⟨i, hi, ho⟩
      obtain ⟨⟨nnn, rfl⟩, hsp⟩ := Instr.faultIn_stackOverflow ho
      exact ⟨⟨nnn, hi⟩, hsp⟩
    · rintro ⟨⟨nnn, hi⟩, hsp⟩
      exact ⟨_, hi, if_pos hsp⟩
  · constructor
    · rintro ⟨i, hi, hu⟩
      obtain ⟨rfl, hsp⟩ := Instr.faultIn_stackUnderflow hu
      exact ⟨hi, hsp⟩
    · rintro ⟨hi, hsp⟩
      exact ⟨_, hi, if_pos hsp⟩

end Sys2Proof.Machine
end

section
/-! PROOFS. The decoder and the encoder (30_encoding.md R61 to R71, R74): everything the decoder can answer, in terms of
the encoder and of the fields of the word; and the first matching row of the opcode map (R68). -/

namespace Sys2Proof

variable {op : Word} {r : Word × Word}

/-! ### Decoding what was encoded -/

/-- The two full-value matches of R65 both have the leading nibble 0. -/
theorem decode_of_lead_ne_zero (h : opLead op ≠ 0x0#4) : decode op = decodeLead op := by
  have hcls : op ≠ 0x00E0#16 := by rintro rfl; exact h (by decide)
  have hret : op ≠ 0x00EE#16 := by rintro rfl; exact h (by decide)
  rw [decode, if_neg hcls, if_neg hret]

theorem encA_zero_ne {nnn w : Addr12} (h : nnn ≠ w) : encA 0x0#4 nnn ≠ encA 0x0#4 w := by
  intro he
  exact h (by simpa using congrArg opNnn he)

theorem Instr.wf_sys {nnn : Addr12} : (Instr.sys nnn).wf = true ↔ nnn ≠ 0x0E0#12 ∧ nnn ≠ 0x0EE#12 := by
  simp [Instr.wf, Instr.sysAddrFree]

/-- The words of the row 0nnn are those of its leading nibble that are neither CLS nor RET (R70 (a)). -/
theorem encode_sys_ne {nnn : Addr12} (h : (Instr.sys nnn).wf = true) :
    encode (.sys nnn) ≠ 0x00E0#16 ∧ encode (.sys nnn) ≠ 0x00EE#16 := by
  obtain ⟨hcls, hret⟩ := Instr.wf_sys.1 h
  exact ⟨encA_zero_ne hcls, encA_zero_ne hret⟩

/-- Settles O2, by the key that selects the row: none (the full-value matches), what is left of the leading nibble 0, the
leading nibble alone, or a second key. -/
theorem decodeEncodeAgree : Obligations.DecodeEncodeAgree := by
  intro i hw
  cases i with
  | cls | ret => rfl
  | sys nnn =>
    obtain ⟨hcls, hret⟩ := encode_sys_ne hw
    rw [decode, if_neg hcls, if_neg hret]
    simp [encode, decodeLead]
  | jp | call | seByte | sneByte | seReg | ldByte | addByte | sneReg | ldI | jpV0 | rnd | drw =>
    simp [encode, decode_of_lead_ne_zero, decodeLead]
  | ldReg | orReg | andReg | xorReg | addReg | subReg | shr | subnReg | shl =>
    simp [encode, decode_of_lead_ne_zero, decodeLead, decodeEight]
  | skp | sknp => simp [encode, decode_of_lead_ne_zero, decodeLead, decodeE]
  | ldVxDt | ldVxK | ldDtVx | ldStVx | addIVx | ldF | ldB | storeRegs | loadRegs =>
    simp [encode, decode_of_lead_ne_zero, decodeLead, decodeF]

/-! ### Everything the decoder can answer -/

/-- The second keys of the 8-group (R68). -/
def eightSelectors : List Nibble := [0x0#4, 0x1#4, 0x2#4, 0x3#4, 0x4#4, 0x5#4, 0x6#4, 0x7#4, 0xE#4]

/-- The second keys of the E-group (R68). -/
def eSelectors : List Byte := [0x9E#8, 0xA1#8]

/-- The second keys of the F-group (R68). -/
def fSelectors : List Byte := [0x07#8, 0x0A#8, 0x15#8, 0x18#8, 0x1E#8, 0x29#8, 0x33#8, 0x55#8, 0x65#8]

/-- The leading nibble asks for a second key and the word has none of those listed (R70 (b), (c), (d)). -/
def Unselected (op : Word) : Prop :=
  (opLead op = 0x8#4 ∧ opN op ∉ eightSelectors) ∨
  (opLead op = 0xE#4 ∧ opKk op ∉ eSelectors) ∨
  (opLead op = 0xF#4 ∧ opKk op ∉ fSelectors)

/-- What the decoder can answer: the well-formed instruction that encodes to the word, or a reject. -/
inductive Dispatched (op : Word) : Except Reject Instr → Prop
  | instr {i : Instr} (hw : i.wf = true) (he : encode i = op) : Dispatched op (.ok i)
  | reject {e : Reject} (hu : Unselected op) : Dispatched op (.error e)

theorem encA_of_lead {l : Nibble} (hl : opLead op = l) : encA l (opNnn op) = op := hl ▸ encA_fields op

theorem encXK_of_lead {l : Nibble} (hl : opLead op = l) : encXK l (opX op) (opKk op) = op := hl ▸ encXK_fields op

theorem encXK_of_keys {l : Nibble} {kk : Byte} (hl : opLead op = l) (hk : opKk op = kk) :
    encXK l (opX op) kk = op := hk ▸ encXK_of_lead hl

theorem encXY_of_lead {l : Nibble} (hl : opLead op = l) : encXY l (opX op) (opY op) (opN op) = op :=
  hl ▸ encXY_fields op

theorem encXY_of_keys {l n : Nibble} (hl : opLead op = l) (hn : opN op = n) :
    encXY l (opX op) (opY op) n = op := hn ▸ encXY_of_lead hl

theorem decodeEight_dispatched (hl : opLead op = 0x8#4) : Dispatched op (decodeEight op) := by
  unfold decodeEight
  split
  case h_10 => exact .reject (.inl ⟨hl, by simp_all [eightSelectors]⟩)
  all_goals exact .instr rfl (encXY_of_keys hl ‹_›)

theorem decodeE_dispatched (hl : opLead op = 0xE#4) : Dispatched op (decodeE op) := by
  unfold decodeE
  split
  case h_3 => exact .reject (.inr (.inl ⟨hl, by simp_all [eSelectors]⟩))
  all_goals exact .instr rfl (encXK_of_keys hl ‹_›)

theorem decodeF_dispatched (hl : opLead op = 0xF#4) : Dispatched op (decodeF op) := by
  unfold decodeF
  split
  case h_10 => exact .reject (.inr (.inr ⟨hl, by simp_all [fSelectors]⟩))
  all_goals exact .instr rfl (encXK_of_keys hl ‹_›)

/-- The leading nibble 0 is left with the words that are neither CLS nor RET. -/
theorem sys_dispatched (hl : opLead op = 0x0#4) (hcls : op ≠ 0x00E0#16) (hret : op ≠ 0x00EE#16) :
    Dispatched op (.ok (.sys (opNnn op))) := by
  have he : encA 0x0#4 (opNnn op) = op := encA_of_lead hl
  refine .instr (Instr.wf_sys.2 ⟨fun h => hcls ?_, fun h => hret ?_⟩) he
  all_goals rw [← he, h]; rfl

theorem opLead_eq_last (h : opLead op ∉ [0x0#4, 0x1#4, 0x2#4, 0x3#4, 0x4#4, 0x5#4, 0x6#4, 0x7#4, 0x8#4, 0x9#4, 0xA#4,
    0xB#4, 0xC#4, 0xD#4, 0xE#4]) : opLead op = 0xF#4 := by
  revert h
  generalize opLead op = l
  revert l
  decide

theorem decodeLead_dispatched (hcls : op ≠ 0x00E0#16) (hret : op ≠ 0x00EE#16) : Dispatched op (decodeLead op) := by
  unfold decodeLead
  split
  case h_1 hl => exact sys_dispatched hl hcls hret
  case h_9 hl => exact decodeEight_dispatched hl
  case h_15 hl => exact decodeE_dispatched hl
  case h_16 => exact decodeF_dispatched (opLead_eq_last (by simp_all))
  case h_2 | h_3 | h_11 | h_12 => exact .instr rfl (encA_of_lead ‹_›)
  case h_4 | h_5 | h_7 | h_8 | h_13 => exact .instr rfl (encXK_of_lead ‹_›)
  case h_6 | h_10 | h_14 => exact .instr rfl (encXY_of_lead ‹_›)

theorem decode_dispatched (op : Word) : Dispatched op (decode op) := by
  unfold decode
  split_ifs with hcls hret
  · exact .instr rfl hcls.symm
  · exact .instr rfl hret.symm
  · exact decodeLead_dispatched hcls hret

/-- Settles O3: an answer of the decoder is the instruction that encodes to the word. -/
theorem encodeDecodeAgree : Obligations.EncodeDecodeAgree := by
  intro op i h
  cases h ▸ decode_dispatched op with
  | instr hw he => exact ⟨hw, he⟩

theorem unselected_of_decode {e : Reject} (h : decode op = .error e) : Unselected op := by
  cases h ▸ decode_dispatched op with
  | reject hu => exact hu

/-! ### The unrecognized words (R70) -/

/-- The four classes of R70 by the fields of the word. -/
def Unrecognized (op : Word) : Prop :=
  (opLead op = 0x0#4 ∧ op ≠ 0x00E0#16 ∧ op ≠ 0x00EE#16) ∨ Unselected op

theorem unrecognized_encode_sys {nnn : Addr12} (h : (Instr.sys nnn).wf = true) : Unrecognized (encode (.sys nnn)) :=
  .inl ⟨opLead_encA _ _, encode_sys_ne h⟩

/-- Of the instructions only SYS is unrecognized: no other row has the leading nibble 0 but CLS and RET, and every row of
the 8-, E- and F-groups has its listed key. -/
theorem not_unrecognized_encode {i : Instr} (h : ∀ nnn, i ≠ .sys nnn) : ¬ Unrecognized (encode i) := by
  cases i with
  | sys nnn => exact absurd rfl (h nnn)
  | cls | ret => simp [Unrecognized, Unselected, encode, opLead]
  | _ => simp [Unrecognized, Unselected, encode, eightSelectors, eSelectors, fSelectors]

theorem unrecognizedWord_iff (op : Word) : unrecognizedWord op = true ↔ Unrecognized op := by
  unfold unrecognizedWord
  have h := decode_dispatched op
  generalize decode op = d at h ⊢
  cases h with
  | reject hu => exact iff_of_true rfl (.inr hu)
  | @instr i hw he =>
    subst he
    cases i with
    | sys => exact iff_of_true rfl (unrecognized_encode_sys hw)
    | _ => exact iff_of_false Bool.false_ne_true (not_unrecognized_encode nofun)

theorem opLead_eq_iff {l : Nibble} : opLead op = l ↔ op.toNat / 0x1000 = l.toNat := by
  rw [← BitVec.toNat_inj, opLead_toNat]

theorem opN_not_mem_eightSelectors :
    opN op ∉ eightSelectors ↔ op.toNat % 0x10 ∈ [0x8, 0x9, 0xA, 0xB, 0xC, 0xD, 0xF] := by
  have h : ∀ n : Nibble, n ∉ eightSelectors ↔ n.toNat ∈ [0x8, 0x9, 0xA, 0xB, 0xC, 0xD, 0xF] := by decide
  rw [h, opN_toNat]

theorem opKk_mem_iff {l : List Byte} : opKk op ∈ l ↔ op.toNat % 0x100 ∈ l.map BitVec.toNat := by
  rw [← opKk_toNat, List.mem_map_of_injective BitVec.toNat_injective]

/-- Settles O4: the four classes by fields, each field read as a number. -/
theorem unrecognizedWordsExactly : Obligations.UnrecognizedWordsExactly := by
  intro op
  rw [unrecognizedWord_iff, Unrecognized, Unselected, opLead_eq_iff, opLead_eq_iff, opLead_eq_iff, opLead_eq_iff,
    opN_not_mem_eightSelectors, opKk_mem_iff, opKk_mem_iff, ne_eq, ne_eq, ← BitVec.toNat_inj, ← BitVec.toNat_inj]
  rfl

/-! ### The first matching row (R68) -/

theorem encode_and_mask (i : Instr) : encode i &&& i.row.1 = i.row.2 := by
  cases i with
  | cls | ret => rfl
  | sys | jp | call | seByte | sneByte | seReg | ldByte | addByte | sneReg | ldI | jpV0 | rnd | drw =>
    exact Laws.InOwnRow.lead_only _ _
  | ldReg | orReg | andReg | xorReg | addReg | subReg | shr | subnReg | shl =>
    exact Laws.InOwnRow.lead_and_nibble _ _ _ _
  | skp | sknp | ldVxDt | ldVxK | ldDtVx | ldStVx | addIVx | ldF | ldB | storeRegs | loadRegs =>
    exact Laws.InOwnRow.lead_and_byte _ _ _

theorem Instr.row_mem_opcodeMap (i : Instr) : i.row ∈ opcodeMap := by
  cases i <;> simp [Instr.row, opcodeMap]

/-- A decidable property of the rows is checked row by row. -/
theorem forall_row {p : Word × Word → Prop} [DecidablePred p] (h : (opcodeMap.all fun r => decide (p r)) = true) :
    ∀ r ∈ opcodeMap, p r := by
  simpa using h

/-- The mask of R68 that the leading nibble of a row decides, the full-value matches apart. -/
def leadMask (l : Nibble) : Word :=
  if l = 0x8#4 then 0xF00F#16 else if l = 0xE#4 ∨ l = 0xF#4 then 0xF0FF#16 else 0xF000#16

theorem row_mask : ∀ r ∈ opcodeMap,
    r = Instr.cls.row ∨ r = Instr.ret.row ∨ opLead r.1 = BitVec.allOnes 4 ∧ r.1 = leadMask (opLead r.2) :=
  forall_row (by decide)

theorem opLead_and {m : Word} (h : opLead m = BitVec.allOnes 4) : opLead (op &&& m) = opLead op := by
  rw [opLead, BitVec.extractLsb'_and, ← opLead, ← opLead, h, BitVec.and_allOnes]

theorem opN_and {m : Word} (h : opN m = BitVec.allOnes 4) : opN (op &&& m) = opN op := by
  rw [opN, BitVec.extractLsb'_and, ← opN, ← opN, h, BitVec.and_allOnes]

theorem opKk_and {m : Word} (h : opKk m = BitVec.allOnes 8) : opKk (op &&& m) = opKk op := by
  rw [opKk, BitVec.extractLsb'_and, ← opKk, ← opKk, h, BitVec.and_allOnes]

/-- The one row that can match a word other than CLS and RET: the word itself under the mask of its leading nibble. -/
theorem row_of_match (hcls : op ≠ 0x00E0#16) (hret : op ≠ 0x00EE#16) (hr : r ∈ opcodeMap) (hm : op &&& r.1 = r.2) :
    r = (leadMask (opLead op), op &&& leadMask (opLead op)) := by
  obtain rfl | rfl | ⟨hlead, hmask⟩ := row_mask r hr
  · exact absurd (BitVec.and_allOnes.symm.trans hm) hcls
  · exact absurd (BitVec.and_allOnes.symm.trans hm) hret
  · rw [← hm, opLead_and hlead] at hmask
    rw [← hmask, hm]

theorem match_of_firstRow (h : firstRow op = some r) : r ∈ opcodeMap ∧ op &&& r.1 = r.2 :=
  ⟨List.mem_of_find?_eq_some h, by simpa using List.find?_some h⟩

theorem firstRow_eq_some (hcls : op ≠ 0x00E0#16) (hret : op ≠ 0x00EE#16) (hr : r ∈ opcodeMap)
    (hm : op &&& r.1 = r.2) : firstRow op = some r := by
  cases h : firstRow op with
  | none => exact absurd (beq_iff_eq.2 hm) (List.find?_eq_none.1 h r hr)
  | some q =>
    obtain ⟨hq, hqm⟩ := match_of_firstRow h
    rw [row_of_match hcls hret hq hqm, row_of_match hcls hret hr hm]

theorem not_unselected_match : ∀ r ∈ opcodeMap, ¬ Unselected r.2 := by
  unfold Unselected
  exact forall_row (by decide)

/-- The mask of the leading nibble keeps the second key. -/
theorem Unselected.masked (h : Unselected op) : Unselected (op &&& leadMask (opLead op)) := by
  obtain ⟨hl, hk⟩ | ⟨hl, hk⟩ | ⟨hl, hk⟩ := h
  · rw [hl]
    exact .inl ⟨(opLead_and (by decide)).trans hl, by rwa [opN_and (by decide)]⟩
  · rw [hl]
    exact .inr (.inl ⟨(opLead_and (by decide)).trans hl, by rwa [opKk_and (by decide)]⟩)
  · rw [hl]
    exact .inr (.inr ⟨(opLead_and (by decide)).trans hl, by rwa [opKk_and (by decide)]⟩)

theorem firstRow_eq_none (h : Unselected op) : firstRow op = none := by
  have hcls : op ≠ 0x00E0#16 := by rintro rfl; exact not_unselected_match Instr.cls.row (by decide) h
  have hret : op ≠ 0x00EE#16 := by rintro rfl; exact not_unselected_match Instr.ret.row (by decide) h
  rw [Option.eq_none_iff_forall_ne_some]
  intro r hr
  obtain ⟨hmem, hm⟩ := match_of_firstRow hr
  have he := row_of_match hcls hret hmem hm
  exact not_unselected_match r hmem (he ▸ h.masked)

/-- Settles O5: the decoded instruction's own row matches, and but for CLS and RET, which are the map's first rows, no
other does; a word without its second key matches none. -/
theorem decoderTakesFirstRow : Obligations.DecoderTakesFirstRow := by
  intro op
  refine ⟨fun i h => ?_, fun e h => firstRow_eq_none (unselected_of_decode h)⟩
  by_cases hcls : op = 0x00E0#16
  · subst hcls
    cases h
    decide
  · by_cases hret : op = 0x00EE#16
    · subst hret
      cases h
      decide
    · obtain ⟨-, rfl⟩ := encodeDecodeAgree op i h
      exact firstRow_eq_some hcls hret i.row_mem_opcodeMap (encode_and_mask i)

/-- Settles O1: each word is laid out as two bytes and decoded, by evaluation. -/
theorem specWordsDecode : Obligations.SpecWordsDecode := by
  unfold Obligations.SpecWordsDecode
  decide

end Sys2Proof
end

section
/-! PROOFS. A Step by the word it fetches: an instruction (30_encoding.md R64) or an unrecognized word (R69, R70); the row
0nnn; and the skips on two registers (40_control_flow.md R86, R87). -/

namespace Sys2Proof.Machine

variable {s : State} {op : Word}

theorem Memory.read_eq_some {m : Memory} {a : Nat} {b : Byte} : m.read a = some b ↔ a < 0x1000 ∧ m.byte a = b := by
  rw [Memory.read, Config.memSize, Option.ite_none_right_eq_some, Option.some.injEq]

/-! ### The fetch, from the bytes at PC -/

theorem State.fetch_of_read {hi lo : Byte} (hhi : s.mem.read s.pc.toNat = some hi)
    (hlo : s.mem.read (s.pc.toNat + 1) = some lo) : s.fetch = .ok (opOfBytes hi lo) := by
  obtain ⟨-, rfl⟩ := Memory.read_eq_some.1 hhi
  obtain ⟨hlt, rfl⟩ := Memory.read_eq_some.1 hlo
  exact State.fetch_of_lt (Nat.succ_lt_succ_iff.1 hlt)

theorem State.fetch_of_opcodeAtPc (h : s.opcodeAtPc op) : s.fetch = .ok op := by
  obtain ⟨hi, lo, hhi, hlo, hop⟩ := h
  rw [State.fetch_of_read hhi hlo, BitVec.eq_of_toNat_eq ((opOfBytes_toNat hi lo).trans hop.symm)]

/-! ### The Step -/

/-- Settles O6: the bytes at PC are the fetched word, and what it decodes to is the current instruction. -/
theorem stepRunsDecodedInstruction : Obligations.StepRunsDecodedInstruction := by
  intro s hi lo i hr hhi hlo hd
  obtain ⟨hw, -⟩ := encodeDecodeAgree _ i hd
  exact ⟨hw, step_of_current hr (State.current_eq_some (State.fetch_of_read hhi hlo) hd)⟩

/-- A word without a row and a word of the row 0nnn do the same (R69): SYS reports the word it was decoded from. -/
theorem State.execWord_of_unrecognized (s : State) (h : unrecognizedWord op = true) :
    s.execWord op = .next (s.unrecognized op) := by
  cases hd : decode op with
  | error e => rw [State.execWord, hd]
  | ok i =>
    cases i with
    | sys nnn =>
      obtain ⟨-, rfl⟩ := encodeDecodeAgree op _ hd
      rw [State.execWord, hd]
      rfl
    | _ => simp [unrecognizedWord, hd] at h

/-- Settles O7: the Step fetches the word, advances PC, reports the word and uses up its inputs. -/
theorem stepOnUnrecognizedWord : Obligations.StepOnUnrecognizedWord := by
  intro s op hr hop hu
  rw [step_of_ready hr, State.fetchAndExec, State.beginStep_fetch, State.fetch_of_opcodeAtPc hop]
  exact congrArg (mapNext State.consume) (s.beginStep.execWord_of_unrecognized hu)

/-- Settles O8: the row's word is 0nnn, and its two writes are to the ports and to PC. -/
theorem unrecognizedRowReports : Obligations.UnrecognizedRowReports := by
  intro nnn s
  have hop : (encA 0x0#4 nnn).toNat = nnn.toNat := by simp [encA_toNat]
  exact ⟨_, _, rfl, rfl, hop, rfl, rfl, rfl, .setPc (.setOut (.refl _ _) rfl _) _⟩

/-! ### The skips -/

theorem State.skipIf_pc (s : State) (c : Bool) : (s.skipIf c).pc = s.pc + if c then 4#16 else 2#16 := by
  rw [State.skipIf_eq, State.setPc_pc]

theorem Frame.skipIf (s : State) (c : Bool) : Frame {} s (s.skipIf c) := .setPc (.refl _ _) _

/-- Settles O30: both rows are a skip on the equality of two registers or on its negation; neither reads the trailing
nibble. -/
theorem skipsOnRegisters : Obligations.SkipsOnRegisters := by
  intro x y n s
  refine ⟨⟨_, rfl, ?_, .skipIf _ _⟩, ⟨_, rfl, ?_, .skipIf _ _⟩⟩
  all_goals
    rw [State.skipIf_pc]
    by_cases h : s.reg x = s.reg y <;> simp [h, BitVec.toNat_inj]

end Sys2Proof.Machine
end

section
/-! PROOFS. Control flow (40_control_flow.md R80 to R85) and the states in which a program waits for ever
(70_reset_and_hazards.md R157). -/

namespace Sys2Proof.Machine

variable {s t : State}

/-! ### Jumps -/

/-- A jump to its own address is no change at all. -/
theorem State.setPc_zextAddr_self {nnn : Addr12} (h : nnn.toNat = s.pc.toNat) : s.setPc (zextAddr nnn) = s := by
  have hpc : zextAddr nnn = s.pc := BitVec.eq_of_toNat_eq ((zextAddr_toNat nnn).trans h)
  rw [hpc]
  rfl

theorem exec_jp_self {nnn : Addr12} (h : nnn.toNat = s.pc.toNat) : exec (.jp nnn) s = .next s :=
  congrArg Host.Outcome.next (State.setPc_zextAddr_self h)

theorem State.fetch_of_le (h : 0xFFF ≤ s.pc.toNat) : s.fetch = .error .fetchOutOfRange :=
  (s.fetch_cases.resolve_left fun hlt => Nat.not_le.2 hlt.1 h).2

/-- Settles O24: JP's one write is to PC; at 0xFFF there is no second byte to fetch. -/
theorem jumpGoesToAddress : Obligations.JumpGoesToAddress := by
  intro nnn s
  have hpc : (s.setPc (zextAddr nnn)).pc.toNat = nnn.toNat := zextAddr_toNat nnn
  refine ⟨_, rfl, hpc, .setPc (.refl _ _) _, fun hlast => ?_, State.setPc_zextAddr_self⟩
  exact State.fetch_of_le (by rw [hpc, hlast])

/-- Settles O25: a 12-bit address and a byte add without a carry out of 16 bits. -/
theorem jumpPlusV0 : Obligations.JumpPlusV0 := by
  intro nnn s
  refine ⟨_, rfl, ?_, .setPc (.refl _ _) _⟩
  have := nnn.isLt
  have := (s.reg 0).isLt
  rw [State.setPc_pc, BitVec.toNat_add, zextAddr_toNat, zextByte_toNat]
  omega

/-! ### CALL and RET -/

/-- Settles O26, by whether the stack has room. -/
theorem callPushesOrOverflows : Obligations.CallPushesOrOverflows := by
  intro nnn s
  obtain ⟨hd, e⟩ | ⟨hd, e⟩ := execCall_cases nnn s
  · refine ⟨fun _ => ⟨_, e, ?_, fun k => ?_, zextAddr_toNat nnn, .setPc (.setStack (.refl _ _) rfl _ _) _⟩,
      fun hfull => absurd (State.sp_eq_max.1 hfull) hd.ne⟩
    · simp [State.sp]
    · have htop : (k.val : Int) = s.sp + 1 ↔ s.depth.val = k.val := by rw [State.sp]; omega
      simp only [htop, State.setPc_stack, Fin.getElem_fin, Vector.getElem_set, State.nextPc]
  · exact ⟨fun hroom => absurd (State.sp_eq_max.2 hd) hroom.ne, fun _ => e⟩

/-- Settles O27, by whether the stack holds an address. -/
theorem retPopsOrUnderflows : Obligations.RetPopsOrUnderflows := by
  intro s
  obtain ⟨hd, e⟩ | ⟨hd, e⟩ := execRet_cases s
  · refine ⟨fun _ => ⟨_, e, ?_, rfl, fun k hk => ?_, .setPc (.setStack (.refl _ _) rfl _ _) _⟩,
      fun hempty => absurd (State.sp_eq_min.1 hempty) hd.ne'⟩
    · simp only [State.sp, State.setPc_depth]
      omega
    · have htop : s.depth.val - 1 = k.val := by rw [State.sp] at hk; omega
      simp only [State.setPc_pc, htop, Fin.getElem_fin]
  · refine ⟨fun hnonempty => ?_, fun _ => e⟩
    rw [State.sp_eq_min.2 hd] at hnonempty
    exact absurd hnonempty (by decide)

/-- Settles O28: CALL leaves the return address in the slot that SP then names (O26), and RET goes where that slot says
(O27). -/
theorem callThenRetReturns : Obligations.CallThenRetReturns := by
  intro nnn s t u hroom hcall hstack hdepth
  obtain ⟨t', e, hsp, hslot, -, -⟩ := (callPushesOrOverflows nnn s).1 hroom
  cases e.symm.trans hcall
  have husp : u.sp = s.sp + 1 := by rw [← hsp, State.sp, State.sp, hdepth]
  have hpos : 0 ≤ s.sp + 1 := by rw [State.sp]; omega
  obtain ⟨top, htop⟩ : ∃ k : Fin 16, (k.val : Int) = s.sp + 1 :=
    ⟨⟨(s.sp + 1).toNat, by omega⟩, Int.toNat_of_nonneg hpos⟩
  obtain ⟨w, hret, hwsp, -, hpc, -⟩ := (retPopsOrUnderflows u).1 (husp ▸ hpos)
  refine ⟨w, hret, ?_, by rw [hwsp, husp]; omega⟩
  rw [hpc top (htop.trans husp.symm), hstack, hslot top, if_pos htop]

/-! ### The skips on a byte -/

/-- Settles O29: both rows are a skip on the equality of a register and the byte or on its negation. -/
theorem skipsOnByte : Obligations.SkipsOnByte := by
  intro x kk s
  refine ⟨⟨_, rfl, ?_, .skipIf _ _⟩, ⟨_, rfl, ?_, .skipIf _ _⟩⟩
  all_goals
    rw [State.skipIf_pc]
    by_cases h : s.reg x = kk <;> simp [h, BitVec.toNat_inj]

/-! ### The states that stay -/

theorem step_of_exec {i : Instr} (hr : s.ready) (hi : s.current = some i) (h : exec i s.beginStep = .next t) :
    step s = .next t.consume := by
  rw [step_of_current hr hi, h, mapNext_next]

/-- Settles O58: of the Step's state, a JP to its own address changes nothing and a waiting LD Vx,K only the ports; so
the next fetch finds the same bytes at the same PC. -/
theorem quiescentStatesStay : Obligations.QuiescentStatesStay := by
  rintro s hr (⟨nnn, hi, hself⟩ | ⟨⟨x, hi⟩, hkey⟩)
  · exact ⟨_, step_of_exec hr hi (exec_jp_self hself), rfl, rfl⟩
  · obtain ⟨-, e⟩ | ⟨_, hsome, -⟩ := execLdVxK_cases x s.beginStep
    · exact ⟨_, step_of_exec hr hi e, rfl, rfl⟩
    · cases hkey.symm.trans hsome

end Sys2Proof.Machine
end

section
/-! PROOFS. Registers and arithmetic (41_alu.md R90 to R103). Every row writes Vx, or VF and then Vx (R103), and
advances PC; the byte it writes is read here as a number or bit by bit. -/

namespace Sys2Proof.Machine

variable {s t : State}

/-! ### The bytes written, as numbers -/

/-- The difference modulo 256 of the exact integers (R97, R99). -/
theorem differenceByte_toInt (a b : Byte) : ((differenceByte a b).toNat : Int) = (a.toNat - b.toNat : Int) % 256 := by
  have := b.isLt
  rw [differenceByte_toNat]
  omega

theorem flagByte_carryFlag_toNat (a b : Byte) :
    (flagByte (carryFlag a b)).toNat = if 255 < a.toNat + b.toNat then 1 else 0 := by
  simp only [flagByte_toNat, carryFlag, decide_eq_true_eq]

theorem flagByte_greaterFlag_toNat (a b : Byte) :
    (flagByte (greaterFlag a b)).toNat = if b.toNat < a.toNat then 1 else 0 := by
  simp only [flagByte_toNat, greaterFlag, decide_eq_true_eq]

/-- A flag that is a bit of a byte is the digit of its number at that place. -/
theorem flagByte_getLsbD_toNat (a : Byte) (k : Nat) : (flagByte (a.getLsbD k)).toNat = a.toNat / 2 ^ k % 2 := by
  rw [flagByte_toNat, BitVec.getLsbD, ← Nat.toNat_testBit]
  cases a.toNat.testBit k <;> rfl

theorem flagByte_lowFlag_toNat (a : Byte) : (flagByte (lowFlag a)).toNat = a.toNat % 2 := by
  rw [lowFlag, flagByte_getLsbD_toNat, Nat.pow_zero, Nat.div_one]

/-- Bit 7 is the top digit of a byte. -/
theorem flagByte_highFlag_toNat (a : Byte) : (flagByte (highFlag a)).toNat = a.toNat / 128 := by
  have := a.isLt
  rw [highFlag, flagByte_getLsbD_toNat]
  omega

/-! ### A write to Vx, PC advanced -/

theorem State.setReg_reg_self (s : State) (r : Reg) : s.setReg r (s.reg r) = s := by
  simp [State.setReg, State.reg]

theorem State.setReg_advance_reg (s : State) (x : Reg) (b : Byte) : (s.setReg x b).advance.reg x = b :=
  State.setReg_reg_same s x b

theorem Frame.setReg_advance (s : State) (x : Reg) (b : Byte) : Frame { regs := [x] } s (s.setReg x b).advance :=
  .setPc (.setReg (.refl _ _) (List.mem_singleton_self x) _) _

/-! ### A write to VF and then to Vx, PC advanced -/

/-- The result is written last, so it stays even in VF (R103). -/
theorem State.setFlagAndReg_advance_reg (s : State) (c : Bool) (x : Reg) (b : Byte) :
    (s.setFlagAndReg c x b).advance.reg x = b :=
  State.setReg_reg_same _ x b

theorem State.setFlagAndReg_advance_flag (s : State) (c : Bool) {x : Reg} (b : Byte) (hx : x ≠ 0xF) :
    (s.setFlagAndReg c x b).advance.reg 0xF = flagByte c :=
  (State.setReg_reg_other _ b hx.symm).trans (State.setReg_reg_same s flagReg _)

theorem Frame.setFlagAndReg {e : Effects} {x : Reg} (h : Frame e s t) (hf : flagReg ∈ e.regs) (hx : x ∈ e.regs)
    (c : Bool) (b : Byte) : Frame e s (t.setFlagAndReg c x b) :=
  (h.setReg hf _).setReg hx b

theorem Frame.setFlagAndReg_advance (s : State) (c : Bool) (x : Reg) (b : Byte) :
    Frame { regs := [x, 0xF] } s (s.setFlagAndReg c x b).advance :=
  .setPc (.setFlagAndReg (.refl _ _) (List.mem_pair.2 (.inr rfl)) List.mem_cons_self c b) _

theorem Frame.setFlagAndReg_flagReg_advance (s : State) (c : Bool) (b : Byte) :
    Frame { regs := [0xF] } s (s.setFlagAndReg c 0xF b).advance :=
  .setPc (.setFlagAndReg (.refl _ _) (List.mem_singleton_self _) (List.mem_singleton_self _) c b) _

/-! ### Rows that write Vx alone -/

/-- Settles O31: the word is the row's encoding (O2). -/
theorem immediateLoad : Obligations.ImmediateLoad := by
  intro x kk s
  exact ⟨decodeEncodeAgree (.ldByte x kk) rfl, _, rfl, s.setReg_advance_reg x kk, rfl, .setReg_advance _ _ _⟩

/-- Settles O32; a register copied to itself is no change. -/
theorem immediateAddAndRegisterCopy : Obligations.ImmediateAddAndRegisterCopy := by
  intro x y kk s
  refine ⟨⟨_, rfl, ?_, rfl, .setReg_advance _ _ _⟩,
    ⟨_, rfl, s.setReg_advance_reg x _, rfl, .setReg_advance _ _ _, ?_⟩⟩
  · rw [State.setReg_advance_reg, sumByte_toNat]
  · rintro rfl
    rw [State.setReg_reg_self]
    exact .setPc (.refl _ _) _

/-- Settles O33: a bit of the combined byte is the combination of the bits. -/
theorem bitwiseLogic : Obligations.BitwiseLogic := by
  intro x y s
  have frame := Frame.setReg_advance s x
  refine ⟨⟨_, rfl, fun k => ?_, rfl, frame _⟩, ⟨_, rfl, fun k => ?_, rfl, frame _⟩,
    ⟨_, rfl, fun k => ?_, rfl, frame _⟩⟩
  · rw [State.setReg_advance_reg, BitVec.getLsbD_or]
  · rw [State.setReg_advance_reg, BitVec.getLsbD_and]
  · rw [State.setReg_advance_reg, BitVec.getLsbD_xor]

theorem State.rnd_of_step {key : Option Byte} {r : Byte} {es : List HostEvent} (h : s.host = .step key r :: es) :
    s.rnd = r := by
  rw [State.rnd, h]

/-- Settles O38: the input is read from the state before, in which the host lists the Step or does not. -/
theorem randomIsMasked : Obligations.RandomIsMasked := by
  intro x kk s
  refine ⟨_, rfl, fun k => ?_, fun _ _ _ => State.rnd_of_step, rfl, .setReg_advance _ _ _⟩
  rw [State.setReg_advance_reg, BitVec.getLsbD_and]

/-! ### Rows that write VF and then Vx -/

/-- Settles O34: the word is the row's encoding (O2), and the flag outlives the result's write because x is not VF. -/
theorem addSetsCarry : Obligations.AddSetsCarry := by
  intro x y s hx
  refine ⟨decodeEncodeAgree (.addReg x y) rfl, _, rfl, ?_, ?_, rfl, .setFlagAndReg_advance _ _ _ _⟩
  · rw [State.setFlagAndReg_advance_reg, sumByte_toNat]
  · rw [State.setFlagAndReg_advance_flag _ _ _ hx, flagByte_carryFlag_toNat]

/-- Settles O35: SUBN is SUB with its operands exchanged. -/
theorem subtractSetsStrictlyGreater : Obligations.SubtractSetsStrictlyGreater := by
  intro x y s hx
  have frame := Frame.setFlagAndReg_advance s
  refine ⟨⟨_, rfl, ?_, ?_, rfl, frame _ _ _⟩, ⟨_, rfl, ?_, ?_, rfl, frame _ _ _⟩⟩
  · rw [State.setFlagAndReg_advance_reg, differenceByte_toInt]
  · rw [State.setFlagAndReg_advance_flag _ _ _ hx, flagByte_greaterFlag_toNat]
  · rw [State.setFlagAndReg_advance_reg, differenceByte_toInt]
  · rw [State.setFlagAndReg_advance_flag _ _ _ hx, flagByte_greaterFlag_toNat]

/-- Settles O36: the bit shifted out is the remainder by 2, or the quotient by 128. -/
theorem shiftsByOne : Obligations.ShiftsByOne := by
  intro x y s hx
  have frame := Frame.setFlagAndReg_advance s
  refine ⟨⟨_, rfl, ?_, ?_, rfl, frame _ _ _⟩, ⟨_, rfl, ?_, ?_, rfl, frame _ _ _⟩⟩
  · rw [State.setFlagAndReg_advance_reg, halfByte_toNat]
  · rw [State.setFlagAndReg_advance_flag _ _ _ hx, flagByte_lowFlag_toNat]
  · rw [State.setFlagAndReg_advance_reg, doubleByte_toNat]
  · rw [State.setFlagAndReg_advance_flag _ _ _ hx, flagByte_highFlag_toNat]

/-- Settles O37: the result overwrites the flag, and both come from the registers of before. -/
theorem flagRegisterAsDestination : Obligations.FlagRegisterAsDestination := by
  intro y s
  have frame := Frame.setFlagAndReg_flagReg_advance s
  refine ⟨⟨_, rfl, ?_, rfl, frame _ _⟩, ⟨_, rfl, ?_, rfl, frame _ _⟩, ⟨_, rfl, ?_, rfl, frame _ _⟩,
    ⟨_, rfl, ?_, rfl, frame _ _⟩, ⟨_, rfl, ?_, rfl, frame _ _⟩⟩
  · rw [State.setFlagAndReg_advance_reg, sumByte_toNat]
  · rw [State.setFlagAndReg_advance_reg, differenceByte_toInt]
  · rw [State.setFlagAndReg_advance_reg, halfByte_toNat]
  · rw [State.setFlagAndReg_advance_reg, differenceByte_toInt]
  · rw [State.setFlagAndReg_advance_reg, doubleByte_toNat]

end Sys2Proof.Machine
end

section
/-! PROOFS. The display (42_display.md R105 to R109). A sprite that lies in memory toggles the pixels it covers; the
statements about DRW follow from that and from the logic of one pixel. -/

namespace Sys2Proof.Machine

variable {s : State} {n : Nibble}

/-! ### The pixels a sprite covers -/

/-- The `k` bytes at I: the rows DRW reads where they lie in memory (R107). -/
def State.spriteRows (s : State) (k : Nat) : List Byte := (List.range k).map fun j => s.mem.byte (s.i.toNat + j)

@[simp] theorem State.spriteRows_length (s : State) (k : Nat) : (s.spriteRows k).length = k := by
  simp [State.spriteRows]

@[simp] theorem State.spriteRows_getElem (s : State) (k j : Nat) (h : j < (s.spriteRows k).length) :
    (s.spriteRows k)[j] = s.mem.byte (s.i.toNat + j) := by
  simp [State.spriteRows]

/-- The pixels of the rows at I are the covered ones (R106, R107). -/
theorem mem_spritePixels_spriteRows {k : Nat} (hfits : k = 0 ∨ s.i.toNat + k ≤ 0x1000) (vx vy : Nat) (c : Fin 64)
    (r : Fin 32) : (c, r) ∈ spritePixels vx vy (s.spriteRows k) ↔ Covered s vx vy k c r := by
  rw [mem_spritePixels]
  refine exists_congr fun dx => exists_congr fun dy => ?_
  simp only [State.spriteRows_length, State.spriteRows_getElem, exists_prop]
  constructor
  · rintro ⟨hdy, hdx, hbit, heq⟩
    obtain ⟨rfl, rfl⟩ := Prod.mk.inj heq
    exact ⟨hdx, hdy, rfl, rfl, _, Memory.read_eq_some.2 ⟨by omega, rfl⟩, hbit⟩
  · rintro ⟨hdx, hdy, hc, hr, b, hread, hbit⟩
    obtain ⟨-, rfl⟩ := Memory.read_eq_some.1 hread
    exact ⟨hdy, hdx, hbit, Prod.ext (Fin.ext hc) (Fin.ext hr)⟩

/-- What a sprite covers depends on I and the bytes of memory alone. -/
theorem covered_congr {u : State} (hi : u.i = s.i) (hm : ∀ a, u.mem.read a = s.mem.read a) (vx vy k : Nat)
    (c : Fin 64) (r : Fin 32) : Covered u vx vy k c r ↔ Covered s vx vy k c r := by
  simp only [Covered, hi, hm]

/-! ### One pixel and one flag -/

/-- A toggled pixel goes from 1 to 0 where it is covered and was set. -/
theorem turned_off_iff {before after : Bool} {cov : Prop} (h : after = true ↔ ¬ (before = true ↔ cov)) :
    before = true ∧ after = false ↔ cov ∧ before = true := by
  rw [← Bool.not_eq_true, h]
  tauto

/-- Toggling twice where covered gives the pixel back. -/
theorem eq_of_toggled_twice {p q r : Bool} {cov : Prop} (hq : q = true ↔ ¬ (p = true ↔ cov))
    (hr : r = true ↔ ¬ (q = true ↔ cov)) : r = p := by
  rw [Bool.eq_iff_iff, hr, hq]
  tauto

theorem flagByte_of_iff {b : Bool} {p : Prop} (h : b = true ↔ p) :
    (p → flagByte b = 1#8) ∧ (¬ p → flagByte b = 0#8) := by
  rw [← h]
  cases b <;> decide

/-! ### What DRW does -/

/-- The picture after the `n` rows at I are drawn at (Vx, Vy), and whether a pixel went out (R106). -/
def State.drawing (s : State) (x y : Reg) (n : Nibble) : Canvas :=
  s.fb.draw (s.reg x).toNat (s.reg y).toNat (s.spriteRows n.toNat)

theorem exec_drw_of_fits (x y : Reg) (hfits : n.toNat = 0 ∨ s.i.toNat + n.toNat ≤ 0x1000) :
    exec (.drw x y n) s = .next (s.showSprite (s.drawing x y n)).advance := by
  obtain ⟨-, e⟩ | ⟨_, _, -⟩ := execDrw_cases x y n s
  · exact e
  · omega

theorem exec_drw_of_outside (x y : Reg) (hn : 0 < n.toNat) (hout : 0x1000 < s.i.toNat + n.toNat) :
    exec (.drw x y n) s = .next (s.raise .dataOutOfRange) := by
  obtain ⟨_, -⟩ | ⟨-, -, e⟩ := execDrw_cases x y n s
  · omega
  · exact e

/-- A sprite with no rows is no change to the picture, and no collision (D26). -/
theorem exec_drw_of_no_rows (x y : Reg) (s : State) (hn : n.toNat = 0) :
    exec (.drw x y n) s = .next (s.setReg flagReg 0#8).advance := by
  rw [exec_drw_of_fits x y (.inl hn), State.drawing, hn]
  rfl

/-- At most 15 rows, so no row of the framebuffer is touched twice (R106). -/
theorem State.spriteRows_length_le (s : State) (n : Nibble) : (s.spriteRows n.toNat).length ≤ 32 := by
  have := n.isLt
  rw [State.spriteRows_length]
  omega

theorem State.drawing_pixel (x y : Reg) (hfits : n.toNat = 0 ∨ s.i.toNat + n.toNat ≤ 0x1000) (c : Fin 64)
    (r : Fin 32) : (s.drawing x y n).fb.pixel c r = true ↔
      ¬ (s.fb.pixel c r = true ↔ Covered s (s.reg x).toNat (s.reg y).toNat n.toNat c r) := by
  rw [State.drawing, Framebuffer.draw_pixel _ _ _ (s.spriteRows_length_le n), ← mem_spritePixels_spriteRows hfits]
  split <;> simp [*]

theorem State.drawing_hit (x y : Reg) (hfits : n.toNat = 0 ∨ s.i.toNat + n.toNat ≤ 0x1000) :
    (s.drawing x y n).hit = true ↔
      ∃ c r, Covered s (s.reg x).toNat (s.reg y).toNat n.toNat c r ∧ s.fb.pixel c r = true := by
  simp only [State.drawing, Framebuffer.draw_hit _ _ _ (s.spriteRows_length_le n), List.any_eq_true, Prod.exists,
    mem_spritePixels_spriteRows hfits]

/-! ### The statements -/

/-- Settles O39: the word is CLS's encoding (O2), and the one write is the clear framebuffer. -/
theorem clearScreen : Obligations.ClearScreen := by
  intro s
  exact ⟨decodeEncodeAgree .cls rfl, _, rfl, Framebuffer.pixel_clear, rfl, .setPc (.setFb (.refl _ _) rfl _) _⟩

/-- Settles O40: the collision is a covered pixel that was set, which is one that went from 1 to 0. -/
theorem drawTogglesCoveredPixels : Obligations.DrawTogglesCoveredPixels := by
  intro x y n s hfits
  have hpixel := State.drawing_pixel x y hfits
  have hhit := (State.drawing_hit x y hfits).trans (exists₂_congr fun c r => (turned_off_iff (hpixel c r)).symm)
  obtain ⟨hset, hclear⟩ := flagByte_of_iff hhit
  have hflag : (s.showSprite (s.drawing x y n)).advance.reg 0xF = flagByte (s.drawing x y n).hit :=
    State.setReg_advance_reg _ flagReg _
  refine ⟨_, exec_drw_of_fits x y hfits, hpixel, fun h => hflag.trans (hset h), fun h => hflag.trans (hclear h), rfl,
    ?_⟩
  exact .setPc (.setReg (.setFb (.refl _ _) rfl _) (List.mem_singleton_self _) _) _

/-- Settles O42: both draws toggle the same pixels (O40), and the pixels that the second turns off are the covered ones
set after the first. -/
theorem drawTwiceRestores : Obligations.DrawTwiceRestores := by
  intro x y n s t u hfits hdraw hfb hx hy hi hm
  obtain ⟨t', e, hfirst, -⟩ := drawTogglesCoveredPixels x y n s hfits
  cases e.symm.trans hdraw
  obtain ⟨w, e, hsecond, hset, hclear, -⟩ := drawTogglesCoveredPixels x y n u (hi ▸ hfits)
  simp only [hfb, hx, hy, covered_congr hi hm] at hsecond hset hclear
  simp only [turned_off_iff (hsecond _ _)] at hset hclear
  exact ⟨w, e, fun c r => eq_of_toggled_twice (hfirst c r) (hsecond c r), hset, hclear⟩

/-- Settles O41: the edges are a span that leaves memory and the empty span. -/
theorem drawEdges : Obligations.DrawEdges := by
  intro x y n s
  refine ⟨fun hn hout => exec_drw_of_outside x y hn (by omega), fun hn => ?_⟩
  exact ⟨_, exec_drw_of_no_rows x y s hn, s.setReg_advance_reg flagReg 0#8, rfl, .setReg_advance s flagReg 0#8⟩

end Sys2Proof.Machine
end

section
/-! PROOFS. Keys and timers (43_keys_timers.md R110 to R115), the inputs that only LD Vx,K and RND read (60_exceptions.md
R140, R141), and the ports that a Step drives (R139, R140, R142). -/

namespace Sys2Proof.Machine

variable {s t : State}

/-! ### The six rows -/

/-- Settles O43: SKP is the PC advance, SKNP the skip that is always taken. -/
theorem keySkipStubs : Obligations.KeySkipStubs := by
  intro x s
  exact ⟨⟨_, rfl, rfl, .setPc (.refl _ _) _⟩, ⟨_, rfl, s.skipIf_pc true, .skipIf _ _⟩⟩

/-- Settles O44: each row is one write and the PC advance. -/
theorem timerMoves : Obligations.TimerMoves := by
  intro x s
  exact ⟨⟨_, rfl, s.setReg_advance_reg x s.dt, rfl, .setReg_advance _ _ _⟩,
    ⟨_, rfl, rfl, rfl, .setPc (.setDt (.refl _ _) rfl _) _⟩, ⟨_, rfl, rfl, rfl, .setPc (.setSt (.refl _ _) rfl _) _⟩⟩

theorem State.key_of_step {key : Option Byte} {r : Byte} {es : List HostEvent} (h : s.host = .step key r :: es) :
    s.key = key := by
  rw [State.key, h]

theorem exec_ldVxK_of_none (x : Reg) (h : s.key = none) : exec (.ldVxK x) s = .next (s.setOut Outputs.waiting) := by
  obtain ⟨-, e⟩ | ⟨_, hk, -⟩ := execLdVxK_cases x s
  · exact e
  · cases h.symm.trans hk

theorem exec_ldVxK_of_some (x : Reg) {key : Byte} (h : s.key = some key) :
    exec (.ldVxK x) s = .next ((s.setReg x key).setOut Outputs.keyTaken).advance := by
  obtain ⟨hk, -⟩ | ⟨_, hk, e⟩ := execLdVxK_cases x s <;> cases h.symm.trans hk
  exact e

/-- Settles O45, by whether the key input carries a key. -/
theorem keyTakenOrWait : Obligations.KeyTakenOrWait := by
  intro x s
  refine ⟨fun key hk => ⟨_, exec_ldVxK_of_some x hk, s.setReg_reg_same x key, rfl, rfl, ?_⟩, exec_ldVxK_of_none x,
    fun _ _ _ => State.key_of_step⟩
  exact .setPc (.setOut (.setReg (.refl _ _) (List.mem_singleton_self x) _) rfl _) _

/-! ### The inputs of the host -/

/-- The state with everything the host supplies replaced (log 2, log 3). -/
def State.withInputs (es : List HostEvent) (d : Nat) (s : State) : State := { s with host := es, draws := d }

section WithInputs

variable (es : List HostEvent) (d : Nat)

theorem State.push_withInputs (s : State) (w : Word) :
    (s.withInputs es d).push w = (s.push w).map (State.withInputs es d) := by
  by_cases hd : s.depth.val < 16 <;> simp [State.push, State.withInputs, hd, Except.map]

theorem State.pop_withInputs (s : State) :
    (s.withInputs es d).pop = s.pop.map fun p => (p.1, p.2.withInputs es d) := by
  by_cases hd : 0 < s.depth.val <;> simp [State.pop, State.withInputs, hd, Except.map]

/-- A read answers with the same bytes, or faults as before. -/
theorem State.readAtI_withInputs (s : State) (n : Nat) : (s.withInputs es d).readAtI n = (s.readAtI n).map id := by
  change s.readAtI n = _
  cases s.readAtI n <;> rfl

theorem State.writeAtI_withInputs (s : State) (bs : List Byte) :
    (s.withInputs es d).writeAtI bs = (s.writeAtI bs).map (State.withInputs es d) := by
  cases hw : s.mem.writeBytes s.i.toNat bs <;> simp [State.writeAtI, State.withInputs, hw, Except.map, State.setMem]

theorem State.setRegs_withInputs (s : State) (k : Nat) (bs : List Byte) :
    (s.withInputs es d).setRegs k bs = (s.setRegs k bs).withInputs es d := by
  induction bs generalizing s k with
  | nil => rfl
  | cons b bs ih => exact ih (s.setReg _ b) (k + 1)

variable {es d}

/-- A row that can fault is an operation `r` and then an effect `f`; if both are the same up to the inputs, so is the
row. -/
theorem State.commit_withInputs {α : Type} {r r' : Except Fault α} {φ : α → α} {f f' : α → State} (hr : r' = r.map φ)
    (hf : ∀ a, f' (φ a) = (f a).withInputs es d) :
    (s.withInputs es d).commit (r'.map f') = mapNext (State.withInputs es d) (s.commit (r.map f)) := by
  subst hr
  cases r with
  | ok a => exact congrArg Host.Outcome.next (hf a)
  | error e => rfl

/-- A row other than LD Vx,K and RND computes its next state from the core alone. -/
theorem exec_withInputs {i : Instr} (hkey : ∀ x, i ≠ .ldVxK x) (hrnd : ∀ x kk, i ≠ .rnd x kk) :
    exec i (s.withInputs es d) = mapNext (State.withInputs es d) (exec i s) := by
  cases i with
  | ldVxK x => exact absurd rfl (hkey x)
  | rnd x kk => exact absurd rfl (hrnd x kk)
  | call => exact State.commit_withInputs (s.push_withInputs es d _) fun _ => rfl
  | ret => exact State.commit_withInputs (s.pop_withInputs es d) fun _ => rfl
  | ldB | storeRegs => exact State.commit_withInputs (s.writeAtI_withInputs es d _) fun _ => rfl
  | drw => exact State.commit_withInputs (s.readAtI_withInputs es d _) fun _ => rfl
  | loadRegs =>
    exact State.commit_withInputs (s.readAtI_withInputs es d _) fun bs =>
      congrArg State.advance (s.setRegs_withInputs es d 0 bs)
  | _ => rfl

end WithInputs

/-- Settles O16: the replacement of the inputs commutes with every other row. -/
theorem inputsReadOnlyByKeyAndRandom : Obligations.InputsReadOnlyByKeyAndRandom :=
  fun _ _ _ _ => exec_withInputs

/-! ### The ports -/

theorem Frame.out_eq {e : Effects} (h : Frame e s t) (he : e.out = false) : t.out = s.out := by
  obtain ⟨-, -, -, -, -, -, -, -, -, -, hout, -⟩ := h
  exact hout he

/-- A row without the ports among its effects leaves them as they were, whether or not it faults. -/
theorem exec_out {i : Instr} (h : exec i s = .next t) (hi : i.effects.out = false) : t.out = s.out := by
  obtain ⟨f, -, rfl⟩ | hc := exec_ran h
  · rfl
  · exact hc.frame.out_eq hi

/-- A word that is not unrecognized is an instruction other than SYS. -/
theorem State.current_of_recognized {op : Word} (hop : s.fetch = .ok op) (hu : unrecognizedWord op ≠ true) :
    ∃ i, s.current = some i ∧ ∀ nnn, i ≠ .sys nnn := by
  unfold unrecognizedWord at hu
  cases hd : decode op with
  | error e => simp [hd] at hu
  | ok i => exact ⟨i, State.current_eq_some hop hd, by rintro nnn rfl; simp [hd] at hu⟩

/-- Everything a Step of an unfaulted state can leave on the ports. -/
theorem step_out_cases (hr : s.ready) (h : step s = .next t) :
    t.out = Outputs.quiet ∨
    (∃ op, s.opcodeAtPc op ∧ unrecognizedWord op = true ∧ t.out = Outputs.report op) ∨
    (∃ x, s.current = some (.ldVxK x)) ∧
      (s.key = none ∧ t.out = Outputs.waiting ∨ s.key ≠ none ∧ t.out = Outputs.keyTaken) := by
  obtain ⟨hatPc, hfault⟩ := fetchIsBigEndianOrFaults s
  by_cases hpc : s.pc.toNat < 0xFFF
  · obtain ⟨op, hop, hat⟩ := hatPc hpc
    by_cases hu : unrecognizedWord op = true
    · cases (stepOnUnrecognizedWord s op hr hat hu).symm.trans h
      exact .inr (.inl ⟨op, hat, hu, rfl⟩)
    · obtain ⟨i, hi, hsys⟩ := State.current_of_recognized hop hu
      obtain ⟨u, he⟩ := exec_next i s.beginStep
      cases (step_of_exec hr hi he).symm.trans h
      cases i with
      | ldVxK x =>
        refine .inr (.inr ⟨⟨x, hi⟩, ?_⟩)
        obtain ⟨hk, e⟩ | ⟨_, hk, e⟩ := execLdVxK_cases x s.beginStep <;> cases e.symm.trans he
        · exact .inl ⟨hk, rfl⟩
        · exact .inr ⟨Option.ne_none_iff_exists'.2 ⟨_, hk⟩, rfl⟩
      | sys nnn => exact absurd rfl (hsys nnn)
      | _ => exact .inl (exec_out he rfl)
  · obtain ⟨-, hfaulted⟩ := hfault (Nat.not_lt.1 hpc)
    cases (hfaulted hr).symm.trans h
    exact .inl rfl

/-- Settles O17. Each output has one source among the four that a Step can have; conversely O7 and the two cases of
LD Vx,K give the Step's next state. -/
theorem outputsOfStep : Obligations.OutputsOfStep := by
  intro s hr
  obtain ⟨t, h⟩ := everyEventCompletes s
  refine ⟨t, h, fun op => ⟨fun hdiag => ?_, ?_⟩, ⟨fun hwait => ?_, ?_⟩, ⟨fun hack => ?_, ?_⟩⟩
  · obtain ho | ⟨w, hat, hu, ho⟩ | ⟨-, ⟨-, ho⟩ | ⟨-, ho⟩⟩ := step_out_cases hr h <;> rw [ho] at hdiag <;> cases hdiag
    exact ⟨hat, hu⟩
  · rintro ⟨hat, hu⟩
    cases (stepOnUnrecognizedWord s op hr hat hu).symm.trans h
    rfl
  · obtain ho | ⟨w, -, -, ho⟩ | ⟨hx, ⟨hk, ho⟩ | ⟨-, ho⟩⟩ := step_out_cases hr h <;> rw [ho] at hwait <;> cases hwait
    exact ⟨hx, hk⟩
  · rintro ⟨⟨x, hi⟩, hk⟩
    cases (step_of_exec hr hi (exec_ldVxK_of_none x hk)).symm.trans h
    rfl
  · obtain ho | ⟨w, -, -, ho⟩ | ⟨hx, ⟨-, ho⟩ | ⟨hk, ho⟩⟩ := step_out_cases hr h <;> rw [ho] at hack <;> cases hack
    exact ⟨hx, hk⟩
  · rintro ⟨⟨x, hi⟩, hk⟩
    obtain ⟨key, hk⟩ := Option.ne_none_iff_exists'.1 hk
    cases (step_of_exec hr hi (exec_ldVxK_of_some x hk)).symm.trans h
    rfl

end Sys2Proof.Machine
end

section
/-! PROOFS. The address register and the memory rows (44_index_memory.md R120 to R125). -/

namespace Sys2Proof.Machine

/-! ### Rows that write I alone -/

theorem Frame.setI_advance (s : State) (w : Word) : Frame { i := true } s (s.setI w).advance :=
  .setPc (.setI (.refl _ _) rfl _) _

/-- Settles O46: the word is the row's encoding (O2), and extending an address by zeros keeps its number. -/
theorem indexLoad : Obligations.IndexLoad := by
  intro nnn s
  exact ⟨decodeEncodeAgree (.ldI nnn) rfl, _, rfl, zextAddr_toNat nnn, rfl, .setI_advance _ _⟩

/-- Settles O47: the one sum is taken modulo 65536; the other, five times a byte, stays below it. -/
theorem indexAddAndGlyphAddress : Obligations.IndexAddAndGlyphAddress := by
  intro x s
  refine ⟨⟨_, rfl, ?_, rfl, .setI_advance _ _⟩, ⟨_, rfl, glyphAddr_toNat _, rfl, .setI_advance _ _⟩⟩
  calc (s.i + zextByte (s.reg x)).toNat
      = (s.i.toNat + (zextByte (s.reg x)).toNat) % 2 ^ 16 := BitVec.toNat_add _ _
    _ = (s.i.toNat + (s.reg x).toNat) % 65536 := by rw [zextByte_toNat]

/-! ### Rows that store from I upwards -/

theorem memSameOutside_setBytes_advance (s : State) {n : Nat} {vs : List Byte} (hn : vs.length = n) (a : Nat) :
    MemSameOutside a n s (s.setMem (s.mem.setBytes a vs)).advance :=
  fun _ hb => Memory.read_setBytes_outside (by rwa [hn])

theorem Frame.setBytes_advance (s : State) (a : Nat) (vs : List Byte) :
    Frame { mem := true } s (s.setMem (s.mem.setBytes a vs)).advance :=
  .setPc (.setBytes (.refl _ _) rfl _ _) _

/-- The three bytes LD B stores are the decimal digits: each is below 256, so storing it as a byte keeps it (R123). -/
theorem bcdBytes_digits (b : Byte) : ∃ h d o : Byte, bcdBytes b = [h, d, o] ∧
    h.toNat = b.toNat / 100 ∧ d.toNat = b.toNat / 10 % 10 ∧ o.toNat = b.toNat % 10 := by
  have := b.isLt
  refine ⟨_, _, _, rfl, ?_, ?_, ?_⟩ <;> rw [store8_toNat] <;> omega

/-- Settles O48, by whether the three bytes fit. -/
theorem decimalDigitsStored : Obligations.DecimalDigitsStored := by
  intro x s
  obtain ⟨hfits, e⟩ | ⟨hout, e⟩ := execLdB_cases x s
  · refine ⟨fun hm _ => ?_, fun hout => by omega⟩
    obtain ⟨h, d, o, hbytes, hh, hd, ho⟩ := bcdBytes_digits (s.reg x)
    rw [hbytes] at e
    have hread {k : Nat} (hk : k < 3) :
        (s.mem.setBytes s.i.toNat [h, d, o]).read (s.i.toNat + k) = some [h, d, o][k] :=
      Memory.read_setBytes_inside hm hfits hk
    exact ⟨_, h, d, o, e, hread (k := 0) (by decide), hh, hread (k := 1) (by decide), hd,
      hread (k := 2) (by decide), ho, memSameOutside_setBytes_advance s (vs := [h, d, o]) rfl _, rfl,
      .setBytes_advance _ _ _⟩
  · exact ⟨fun _ hfits => by omega, fun _ => e⟩

/-- Settles O49, by whether the x + 1 bytes fit. -/
theorem registersStored : Obligations.RegistersStored := by
  intro x s
  obtain ⟨hfits, e⟩ | ⟨hout, e⟩ := execStoreRegs_cases x s
  · refine ⟨fun hm hlt => ⟨_, e, fun k hk => ?_, ?_, rfl, .setBytes_advance _ _ _⟩, fun hout => by omega⟩
    · have hin : s.i.toNat + k.val < 0x1000 := Nat.lt_of_le_of_lt (Nat.add_le_add_left hk _) hlt
      exact Memory.read_eq_some.2 ⟨hin, State.byte_storedRegs hm hlt hk⟩
    · exact memSameOutside_setBytes_advance s (s.regsUpTo_length x) _
  · exact ⟨fun _ hfits => by omega, fun _ => e⟩

/-! ### The row that loads from I upwards -/

/-- Register `k` of V0 to Vx holds the byte at I + k after the load (R125). -/
theorem State.reg_loadedRegs {s : State} {x k : Reg} (hk : k ≤ x) :
    (s.setRegs 0 ((List.range (x.val + 1)).map fun j => s.mem.byte (s.i.toNat + j))).reg k =
      s.mem.byte (s.i.toNat + k.val) := by
  rw [State.setRegs_reg _ _ _ (by simp), dif_pos (by simpa [Nat.lt_succ_iff] using hk)]
  simp

theorem Frame.setRegs_advance (s : State) {x : Reg} {bs : List Byte} (hlen : bs.length = x.val + 1) :
    Frame { regs := (List.finRange 16).filter (· ≤ x) } s (s.setRegs 0 bs).advance := by
  refine .setPc (.setRegs (.refl _ _) (by omega) fun q hq => ?_) _
  exact List.mem_filter.2 ⟨List.mem_finRange q, decide_eq_true (Fin.le_def.2 (by omega))⟩

/-- Settles O50, by whether the x + 1 bytes exist. -/
theorem registersLoaded : Obligations.RegistersLoaded := by
  intro x s
  obtain ⟨hfits, e⟩ | ⟨hout, e⟩ := execLoadRegs_cases x s
  · refine ⟨fun hlt => ⟨_, e, fun k hk => ?_, ?_, .setRegs_advance s (by simp)⟩,
      fun hout => by omega⟩
    · have hin : s.i.toNat + k.val < 0x1000 := Nat.lt_of_le_of_lt (Nat.add_le_add_left hk _) hlt
      exact Memory.read_eq_some.2 ⟨hin, (State.reg_loadedRegs hk).symm⟩
    · rw [State.advance_eq, State.setPc_pc, State.setRegs_pc]
  · exact ⟨fun hfits => by omega, fun _ => e⟩

end Sys2Proof.Machine
end

section
/-! PROOFS. Fault entry, Reset and Tick (60_exceptions.md R132, R134, R137; 70_reset_and_hazards.md R150). -/

namespace Sys2Proof.Machine

variable {s t : State}

/-! ### Fault entry -/

/-- A Step that ends in fault entry leaves the latch, STARTED and quiet outputs, and has used up its inputs (R132). -/
theorem State.raise_consume_eq_faulted (s : State) (f : Fault) : (s.beginStep.raise f).consume = s.faulted f := rfl

/-- Where no fault was latched, a transition to a latched one is fault entry of a Step: of the other outcomes a frozen
Step starts with a latch, and none of the rest touches it. -/
theorem Transition.latches {f : FaultRecord} (h : Transition s t) (hs : s.fault = none) (ht : t.fault = some f) :
    s.ready ∧ ∃ c, t = s.faulted c := by
  cases h with
  | frozen _ hf => cases hf.symm.trans hs
  | fetchFault hr => exact ⟨hr, _, State.raise_consume_eq_faulted s _⟩
  | ran hr _ _ hu =>
    obtain ⟨c, -, rfl⟩ | hc := hu
    · exact ⟨hr, c, State.raise_consume_eq_faulted s c⟩
    · cases ht.symm.trans (hc.frame.fault_eq.trans hs)
  | reset => cases ht
  | unrecognized | loaded | ticked | ignored => cases ht.symm.trans hs

/-- Settles O12: the transition that latched the fault was fault entry, which says what the latch holds. -/
theorem faultsArePrecise : Obligations.FaultsArePrecise := by
  intro s t f hs h ht
  obtain ⟨⟨-, hn⟩, c, rfl⟩ := (step_transition h).latches hs ht
  obtain rfl : { cause := c, pc := s.pc } = f := Option.some.inj ht
  exact ⟨hn, rfl, rfl, rfl⟩

/-! ### Reset and Tick -/

theorem step_reset {es : List HostEvent} (hh : s.host = .reset :: es) :
    step s = .next { s with host := es }.resetEvent := by
  rw [step, State.runEvent, hh]

theorem step_tick {es : List HostEvent} (hh : s.host = .tick :: es) :
    step s = .next { s with host := es }.tickEvent := by
  rw [step, State.runEvent, hh]

/-- Settles O54: the event writes every field as Reset does but for the pending events and the counter of Steps. -/
theorem resetEventResets : Obligations.ResetEventResets := by
  intro s es hh
  exact ⟨_, step_reset hh, rfl, rfl, rfl⟩

/-- A decrement towards zero is natural subtraction (R137). -/
theorem countDown_toNat (b : Byte) : (countDown b).toNat = b.toNat - 1 := by
  rw [countDown]
  split
  case isTrue h => rw [h]; rfl
  case isFalse h => bv_omega

/-- Settles O57, by whether a fault is latched: a Tick is ignored, or counts both timers down. -/
theorem tickCountsDown : Obligations.TickCountsDown := by
  intro s es hh
  refine ⟨_, step_tick hh, ?_⟩
  obtain ⟨hf, e⟩ | ⟨hf, e⟩ := State.tickEvent_cases { s with host := es } <;> rw [e]
  · exact ⟨rfl, fun hn => absurd hn hf, fun _ => ⟨rfl, rfl⟩⟩
  · exact ⟨rfl, fun _ => ⟨countDown_toNat _, countDown_toNat _⟩, fun hn => absurd hf hn⟩

end Sys2Proof.Machine
end
